-- ==== Sys2Proof/Word.lean ====
section
/-! DEFINITION. The word and byte types (00_scope.md R7, R8: 32-bit registers and addresses, 8-bit bytes). -/

namespace Sys2Proof

/-- A 32-bit register value or byte address. -/
abbrev Word := BitVec 32

/-- One byte of output memory. -/
abbrev Byte := BitVec 8

/-- The output memory has `ADDR_W = 32` bit byte addresses (20_memory.md R50). -/
abbrev addressSpaceSize : Nat := 2 ^ 32

/-- The register space covers byte offsets 0x00..0xFF (20_memory.md R50). -/
abbrev registerSpaceSize : Nat := 256

end Sys2Proof
end

