-- ==== Sys2Proof/Syntax.lean ====
section
/-! DEFINITION. The commands of the block, one constructor per row of spec/opcode_table.json. -/

namespace Sys2Proof

/-- A command with its operands (30_encoding.md R84). A word that is no legal command is no `Instr`:
decoding rejects it by name, and the machine answers it with ILLEGAL_COMMAND (60_exceptions.md R171). -/
inductive Instr where
  /-- INIT (40_bitwriter.md R101), format N. -/
  | init
  /-- ADDBITS w (40_bitwriter.md R106), format W. The value operand is the ARG register. -/
  | addbits (width : Nat)
  /-- FLUSH (40_bitwriter.md R107), format N. -/
  | flush
  /-- ENCODE tl (41_ncount_encoder.md R131), format T. -/
  | encode (tableLog : Nat)
  deriving DecidableEq, Repr

end Sys2Proof
end

