-- ==== Sys2Proof/WellFormed.lean ====
section
/-! DEFINITION. Which commands can be written down at all: the operand ranges of 30_encoding.md R88. -/

namespace Sys2Proof

/-- The operand fits its field: W is 6 bits (30_encoding.md R82), TL is 4 bits (R83). -/
def Instr.wellFormed : Instr → Bool
  | .init => true
  | .addbits width => decide (width < 64)
  | .flush => true
  | .encode tableLog => decide (tableLog < 16)

end Sys2Proof
end

