-- ==== Sys2Proof/Decode.lean ====
section
/-! DEFINITION. The decoder, total on all 2^32 words (30_encoding.md R85), and the encoder (R81 to R83, R88). -/

namespace Sys2Proof

/-- Why a word is no legal command (30_encoding.md R86). -/
inductive DecodeError where
  /-- The opcode field is 0x0 or 0x5..0xF. -/
  | illegalOpcode (op : BitVec 4)
  /-- The opcode is legal, and a reserved bit of its format is 1. -/
  | reservedBits (op : BitVec 4)
  deriving DecidableEq, Repr

/-- Bits [3:0] of a command word, the field OP (30_encoding.md R80). -/
def opField (w : Word) : BitVec 4 := w.extractLsb' 0 4

/-- Bits [9:4] of a command word, the field W (30_encoding.md R82). -/
def widthField (w : Word) : BitVec 6 := w.extractLsb' 4 6

/-- Bits [7:4] of a command word, the field TL (30_encoding.md R83). -/
def tableLogField (w : Word) : BitVec 4 := w.extractLsb' 4 4

/-- A command if the reserved bits of its format are 0, else the rejection. -/
def checkReserved (w : Word) (reservedAreZero : Bool) (i : Instr) : Except DecodeError Instr :=
  if reservedAreZero then .ok i else .error (.reservedBits (opField w))

/-- `Decode(w)` of 30_encoding.md R85. -/
def decode (w : Word) : Except DecodeError Instr :=
  match (opField w).toNat with
  | 1 => checkReserved w (w.extractLsb' 4 28 == 0) .init
  | 2 => checkReserved w (w.extractLsb' 10 22 == 0) (.addbits (widthField w).toNat)
  | 3 => checkReserved w (w.extractLsb' 4 28 == 0) .flush
  | 4 => checkReserved w (w.extractLsb' 8 24 == 0) (.encode (tableLogField w).toNat)
  | _ => .error (.illegalOpcode (opField w))

/-- The opcode of a command (30_encoding.md R84). -/
def opcode : Instr → Word
  | .init => 0x1#32
  | .addbits _ => 0x2#32
  | .flush => 0x3#32
  | .encode _ => 0x4#32

/-- The operand field of a command, in its place in the word (30_encoding.md R82, R83, R88). -/
def operandBits : Instr → Word
  | .init => 0#32
  | .addbits width => BitVec.ofNat 32 width <<< 4
  | .flush => 0#32
  | .encode tableLog => BitVec.ofNat 32 tableLog <<< 4

/-- The word of a well-formed command (30_encoding.md R88). -/
def encode (i : Instr) : Word := opcode i ||| operandBits i

/-- The opcode map's mask of a command (30_encoding.md R84; spec/opcode_table.json). -/
def opcodeMask : Instr → Word
  | .init => 0xFFFFFFFF#32
  | .addbits _ => 0xFFFFFC0F#32
  | .flush => 0xFFFFFFFF#32
  | .encode _ => 0xFFFFFF0F#32

/-- The command word that the bits `w`, given by a table row of `nbits` bits, stand for: bits at and above
`nbits` are 0. None where they are wider than the one 32-bit word every command has (30_encoding.md R80). -/
def tableWord (nbits w : Nat) : Option Word :=
  if w % 2 ^ nbits < 2 ^ 32 then some (BitVec.ofNat 32 (w % 2 ^ nbits)) else none

/-- The command the decoder reads from a table word; none where it rejects. -/
def decodeTableWord (nbits w : Nat) : Option Instr :=
  match tableWord nbits w with
  | none => none
  | some word =>
    match decode word with
    | .ok i => some i
    | .error _ => none

end Sys2Proof
end

