-- ==== Sys2Proof/Config.lean ====
section
/-! DEFINITION. What an implementation fixes, and the values the spec leaves open
(00_scope.md R8; 92_eei_decisions.md, named parameters). The opaque constants have no body:
a claim about them holds whatever they are. -/

namespace Sys2Proof

/-- The two readings of an add whose value is wider than its field (41_ncount_encoder.md R140). -/
inductive OverwidePolicy where
  /-- The source's unmasked effect formula: this hardware's choice. -/
  | literal
  /-- The named alternative: the value is reduced to its width. -/
  | mask
  deriving DecidableEq, Repr

/-- `REG_BASE`: the host address of the register window's first byte, OPEN (92_eei_decisions.md D2).
Log entry 7. -/
opaque Config.regBase : Nat

/-- The word an entry source gives at an index the host declared in ENTRY_COUNT but did not supply:
`ENTRY_SOURCE` is OPEN (92_eei_decisions.md D11). The first argument is `State.epoch`, so two commands may
see different words while one command sees one word (20_memory.md R59). A free value, log entry 4. -/
opaque Config.unsuppliedEntry : Nat → Nat → Word

/-- What a host read finds at an output-memory address that no step has written: the contents belong to the
host (10_state.md R36). The first argument is `State.epoch`, the second the address. A free value, log entry 3. -/
opaque Config.unwrittenByte : Nat → Nat → Byte

end Sys2Proof
end

