-- ==== Sys2Proof/Machine/State.lean ====
section
/-! DEFINITION. The machine's state as plain data, its stops, and the state after reset. -/

namespace Sys2Proof.Machine

/-- The result codes that STATUS.RESULT can hold; 8..15 are never produced (60_exceptions.md R170). -/
inductive ResultCode where
  | ok
  | illegalCommand
  | invalidTableLog
  | coverageMismatch
  | bufferTooSmall
  | registerOverflow
  | valueTooWide
  | invalidCount
  deriving DecidableEq, Repr

/-- STATUS: RESULT [3:0] and STICKY [4]; bits [31:5] are hard-wired 0 (10_state.md R23). The register's word
is `statusWord` in Machine/Flags.lean. -/
structure Status where
  result : ResultCode
  sticky : Bool
  deriving DecidableEq, Repr

/-- The BitWriter state (40_bitwriter.md R102): CURSOR and ACC are 32 bits (10_state.md R28, R29), FILL has bits
[5:0] (R30). -/
structure BitWriter where
  acc    : Word
  fill   : BitVec 6
  cursor : Word
  deriving DecidableEq, Repr

/-- Output memory: the bytes written so far, addresses strictly rising. An unlisted address has no value
(log entry 3). -/
abbrev Memory := List Host.Cell

/-- The canonical form: addresses strictly rising and inside the 32-bit address space (20_memory.md R50). No entry
can equal what an unlisted address reads as, since that is no value. -/
abbrev Memory.wf (m : Memory) : Prop :=
  m.Pairwise (fun c d => c.1 < d.1) ∧ ∀ c ∈ m, c.1 < addressSpaceSize

/-- One thing the outside does to the block or to what the host owns, between commands (00_scope.md R6;
20_memory.md R50, R64; 70_reset_and_hazards.md R200, R206). -/
inductive HostAccess where
  /-- A write of `bytes` bytes at a register-space byte offset. Only `bytes = 4` at an aligned offset is in the
  interface (20_memory.md R61); `data` is the 32-bit word of such a write. -/
  | regWrite (bytes offset : Nat) (data : Word)
  /-- A read of `bytes` bytes at a register-space byte offset. -/
  | regRead (bytes offset : Nat)
  /-- The reset input (70_reset_and_hazards.md R200). -/
  | reset
  /-- The host writes one byte of output memory, which it owns. -/
  | memWrite (address : Nat) (data : Byte)
  /-- The host reads one byte of output memory. -/
  | memRead (address : Nat)
  /-- The host makes the entry source hold this sequence of `cnt` words (70_reset_and_hazards.md R201). -/
  | supplyEntries (counts : List Word)
  /-- The host writes one entry's `cnt` word (20_memory.md R50: any host access; log entry 22). -/
  | sourceWrite (index : Nat) (data : Word)
  /-- The host reads one entry's `cnt` word (20_memory.md R50: any host access; log entry 22). -/
  | sourceRead (index : Nat)
  /-- Another agent touches the buffer or the entry source during a command (20_memory.md R66). -/
  | foreignAccess
  deriving DecidableEq, Repr

/-- What a host read returned. -/
inductive Response where
  | reg (offset : Nat) (value : Word)
  | mem (address : Nat) (value : Byte)
  | entry (index : Nat) (value : Word)
  deriving DecidableEq, Repr

/-- The machine: the nine registers (10_state.md R21; CMD stores nothing, R22), the two spaces the host owns that
commands write or read (20_memory.md R50), and the model's own record of the host. -/
structure State where
  /-- STATUS (10_state.md R23). -/
  status     : Status
  /-- ARG (10_state.md R24). -/
  arg        : Word
  /-- BUF_BASE (10_state.md R25). -/
  bufBase    : Word
  /-- BUF_END (10_state.md R26). -/
  bufEnd     : Word
  /-- ENTRY_COUNT (10_state.md R27). -/
  entryCount : Word
  /-- ACC, FILL and CURSOR (10_state.md R28 to R30). -/
  bw         : BitWriter
  /-- Output memory (20_memory.md R50). -/
  mem        : Memory
  /-- The entry source: the `cnt` words the host has supplied, by index (20_memory.md R59). -/
  entries    : List Word
  /-- The host accesses still to come, oldest first (00_scope.md R6). The model's own field, log entry 1. -/
  pending    : List HostAccess
  /-- What host reads returned, newest first. The model's own field, log entry 6. -/
  responses  : List Response
  /-- Counts host accesses; the free values are applied to it. The model's own field, log entry 5. -/
  epoch      : Nat
  deriving DecidableEq, Repr

/-- What stops the machine with a fault. Commands never fault (60_exceptions.md R179; 70_reset_and_hazards.md R209). -/
inductive Fault where
  /-- Raised by a host register access at an offset outside the register space 0x00..0xFF, which does not exist
  (20_memory.md R50). Safe: the model stops. -/
  | noSuchOffset (offset : Nat)
  /-- Raised by a host access to an output-memory address outside the 2^32 bytes (20_memory.md R50).
  Safe: the model stops. -/
  | noSuchAddress (address : Nat)
  deriving DecidableEq, Repr

/-- What the model gives no meaning to. -/
inductive Refusal where
  /-- Raised by `exec` for a command without a meaning; no arm raises it. Safe. -/
  | notModelled (mnemonic : String)
  /-- Raised by a host register access that is not 32-bit and word-aligned (20_memory.md R61; 93 S5). Safe. -/
  | outsideInterface (bytes offset : Nat)
  /-- Raised when another agent touches the buffer or the entry source during a command (20_memory.md R66; 93 S6).
  Unsafe where a real system races the block: no claim speaks of such a run. -/
  | exclusiveUseBroken
  deriving DecidableEq, Repr

/-- The machine right after reset: every register 0 (10_state.md R36; 70_reset_and_hazards.md R200). Memory, entries,
pending, responses and epoch are no block state; their values here are log entries 1 and 3 to 6. -/
def State.reset : State where
  status     := ⟨.ok, false⟩
  arg        := 0
  bufBase    := 0
  bufEnd     := 0
  entryCount := 0
  bw         := ⟨0, 0, 0⟩
  mem        := []
  entries    := []
  pending    := []
  responses  := []
  epoch      := 0

end Sys2Proof.Machine
end

