-- ==== Sys2Proof/Machine/Flags.lean ====
section
/-! DEFINITION. STATUS: the result codes' numbers, the register's word, and what a command's end does to it. -/

namespace Sys2Proof.Machine

/-- The number of a result code in STATUS.RESULT (60_exceptions.md R170). -/
def resultNumber : ResultCode → BitVec 4
  | .ok => 0
  | .illegalCommand => 1
  | .invalidTableLog => 2
  | .coverageMismatch => 3
  | .bufferTooSmall => 4
  | .registerOverflow => 5
  | .valueTooWide => 6
  | .invalidCount => 7

/-- The word STATUS reads as: RESULT in [3:0], STICKY in [4], the rest hard-wired 0 (10_state.md R23). -/
def statusWord (st : Status) : Word :=
  (resultNumber st.result).setWidth 32 ||| (BitVec.ofBool st.sticky).setWidth 32 <<< 4

/-- `Finish(code)` for every command but INIT: RESULT gets the code, and STICKY is set by a code that is
not OK, else kept (60_exceptions.md R170). -/
def statusAfter (st : Status) (code : ResultCode) : Status :=
  ⟨code, st.sticky || decide (code ≠ .ok)⟩

/-- `Finish(code)` for INIT, which clears STICKY (60_exceptions.md R170). -/
def statusAfterInit (code : ResultCode) : Status := ⟨code, false⟩

end Sys2Proof.Machine
end

