-- ==== Sys2Proof/Machine/Operands.lean ====
section
/-! DEFINITION. The operands: the register space, the ADDBITS value, the entry source, and the integer
functions the commands use. -/

namespace Sys2Proof.Machine

/-- The nine registers (10_state.md R21). -/
inductive Register where
  | cmd | status | arg | bufBase | bufEnd | entryCount | cursor | acc | fill
  deriving DecidableEq, Repr

/-- The byte offset of a register (10_state.md R21). -/
def registerOffset : Register → Nat
  | .cmd => 0x00
  | .status => 0x04
  | .arg => 0x08
  | .bufBase => 0x0C
  | .bufEnd => 0x10
  | .entryCount => 0x14
  | .cursor => 0x18
  | .acc => 0x1C
  | .fill => 0x20

/-- The register at a byte offset; none at an unmapped one (10_state.md R21, 20_memory.md R63). -/
def registerAt : Nat → Option Register
  | 0x00 => some .cmd
  | 0x04 => some .status
  | 0x08 => some .arg
  | 0x0C => some .bufBase
  | 0x10 => some .bufEnd
  | 0x14 => some .entryCount
  | 0x18 => some .cursor
  | 0x1C => some .acc
  | 0x20 => some .fill
  | _ => none

/-- What a host read of a register returns (10_state.md R22 to R30; 20_memory.md R62): CMD reads 0. -/
def readRegister (r : Register) (s : State) : Word :=
  match r with
  | .cmd => 0
  | .status => statusWord s.status
  | .arg => s.arg
  | .bufBase => s.bufBase
  | .bufEnd => s.bufEnd
  | .entryCount => s.entryCount
  | .cursor => s.bw.cursor
  | .acc => s.bw.acc
  | .fill => s.bw.fill.setWidth 32

/-- What a host read at a word-aligned offset returns: 0 where no register is (20_memory.md R63). -/
def readOffset (offset : Nat) (s : State) : Word :=
  match registerAt offset with
  | some r => readRegister r s
  | none => 0

/-- The value operand of ADDBITS: ARG, unsigned (30_encoding.md R82; 40_bitwriter.md R106). -/
def valueOperand (s : State) : Nat := s.arg.toNat

/-- The declared length of the entry sequence (10_state.md R27). -/
def entryLimit (s : State) : Nat := s.entryCount.toNat

/-- The 32-bit word the entry source holds at an index; a free value where the host supplied none (log entry 4). -/
def entryWord (s : State) (i : Nat) : Word :=
  match s.entries[i]? with
  | some w => w
  | none => Config.unsuppliedEntry s.epoch i

/-- The entry source's words with the one at `index` replaced. Words between the supplied ones and a later index take the free
values they had (log entries 4 and 22). -/
def entriesWith (s : State) (index : Nat) (data : Word) : List Word :=
  (List.range (max s.entries.length (index + 1))).map fun i => if i = index then data else entryWord s i

/-- `EntryRead(i)`: the entry's `cnt` as a signed 32-bit integer (20_memory.md R59). -/
def entryRead (s : State) (i : Nat) : Int := (entryWord s i).toInt

/-- `bitlength(n)` for `n >= 1`: the position of the highest set bit, floor(log2 n) (00_scope.md R9; 90 C1, C2). -/
def bitlength (n : Nat) : Nat := Nat.log2 n

/-- Byte `j` of a word: bits [8j+7:8j] (20_memory.md R52, R53). -/
def byteOf (v : Word) (j : Nat) : Byte := v.extractLsb' (8 * j) 8

/-- `OVERWIDE_POLICY` of this hardware (41_ncount_encoder.md R140; 92_eei_decisions.md D15). -/
def overwidePolicy : OverwidePolicy := .literal

/-- `Policy(v, w)` of 41_ncount_encoder.md R140. -/
def applyPolicy (policy : OverwidePolicy) (value width : Nat) : Nat :=
  match policy with
  | .literal => value
  | .mask => value % 2 ^ width

/-- Where a host address falls in the register window, which starts at `base` (20_memory.md R71). -/
def windowOffset (base hostAddress : Nat) : Option Nat :=
  if base ≤ hostAddress ∧ hostAddress < base + registerSpaceSize then some (hostAddress - base) else none

end Sys2Proof.Machine
end

