-- ==== Sys2Proof/Machine/Ops.lean ====
section
/-! DEFINITION. The shared operations: one update per part of the state, output memory, the two BitWriter
primitives with their checks, and a command's end. -/

namespace Sys2Proof.Machine

/-! ## One update per part of the state -/

def State.setStatus (s : State) (st : Status) : State := { s with status := st }
def State.setArg (s : State) (v : Word) : State := { s with arg := v }
def State.setBufBase (s : State) (v : Word) : State := { s with bufBase := v }
def State.setBufEnd (s : State) (v : Word) : State := { s with bufEnd := v }
def State.setEntryCount (s : State) (v : Word) : State := { s with entryCount := v }
def State.setBw (s : State) (b : BitWriter) : State := { s with bw := b }
def State.setMem (s : State) (m : Memory) : State := { s with mem := m }
def State.setEntries (s : State) (counts : List Word) : State := { s with entries := counts }

/-- A host read returned `r`. -/
def State.respond (s : State) (r : Response) : State := { s with responses := r :: s.responses }

/-- The next host access is taken off the queue and counted: `rest` is still to come. -/
def State.takeAccess (s : State) (rest : List HostAccess) : State :=
  { s with pending := rest, epoch := s.epoch + 1 }

/-- A host access is put at the head of the queue, so that it is the next one. -/
def State.putAccess (s : State) (a : HostAccess) : State := { s with pending := a :: s.pending }

/-! ## Output memory -/

/-- The byte at an address; none where no step has written one (log entry 3). -/
def readByte : Memory → Nat → Option Byte
  | [], _ => none
  | (a, b) :: rest, x => if a = x then some b else readByte rest x

/-- Write one byte, keeping the addresses strictly rising. -/
def writeByte : Memory → Nat → Byte → Memory
  | [], x, v => [(x, v)]
  | (a, b) :: rest, x, v =>
    if x < a then (x, v) :: (a, b) :: rest
    else if x = a then (x, v) :: rest
    else (a, b) :: writeByte rest x v

/-- `MemWrite(addr, 4, v)`: four bytes, little-endian, in the order j = 0..3 (20_memory.md R53). -/
def memWrite4 (m : Memory) (addr : Nat) (v : Word) : Memory :=
  writeByte (writeByte (writeByte (writeByte m addr (byteOf v 0)) (addr + 1) (byteOf v 1))
    (addr + 2) (byteOf v 2)) (addr + 3) (byteOf v 3)

/-- A list of (cursor, ACC) writes performed in order (41_ncount_encoder.md R139; 20_memory.md R65). -/
def commitWrites (m : Memory) : List (Word × Word) → Memory
  | [] => m
  | (cursor, acc) :: rest => commitWrites (memWrite4 m cursor.toNat acc) rest

/-! ## The BitWriter primitives -/

/-- `AddFits(s, width)` (40_bitwriter.md R103). -/
abbrev AddFits (b : BitWriter) (width : Nat) : Prop := b.fill.toNat + width ≤ 32

/-- `BW_Add(s, value, width)`, which does not mask the value (40_bitwriter.md R104). -/
def bwAdd (b : BitWriter) (value width : Nat) : BitWriter where
  acc    := b.acc ||| BitVec.ofNat 32 (value <<< b.fill.toNat)
  fill   := BitVec.ofNat 6 (b.fill.toNat + width)
  cursor := b.cursor

/-- `FlushFits(cursor)`, on unbounded integers (20_memory.md R56). -/
abbrev FlushFits (bufBase bufEnd cursor : Word) : Prop :=
  bufBase.toNat ≤ cursor.toNat ∧ cursor.toNat + 4 ≤ bufEnd.toNat

/-- The whole bytes a flush completes: `fill >> 3` (40_bitwriter.md R105). -/
def flushAdvance (b : BitWriter) : Nat := b.fill.toNat >>> 3

/-- `BW_Flush(s)` without its write, which is `(b.cursor, b.acc)` (40_bitwriter.md R105, 92_eei_decisions.md D16). -/
def bwFlush (b : BitWriter) : BitWriter where
  acc    := if flushAdvance b = 4 then 0 else b.acc >>> (8 * flushAdvance b)
  fill   := b.fill &&& 7
  cursor := b.cursor + BitVec.ofNat 32 (flushAdvance b)

/-! ## The end of a command -/

/-- The end of a command that succeeds: `Finish(OK)` (60_exceptions.md R170). INIT ends otherwise. -/
def complete (s : State) : Host.Outcome State Fault Refusal :=
  .next (s.setStatus (statusAfter s.status .ok))

/-- `raise E`: error entry. `Finish(E)` and the end of the command, with no other effect: nothing is saved and control
goes nowhere (60_exceptions.md R170, R179). There is no return from it (R180). -/
def raiseError (code : ResultCode) (s : State) : Host.Outcome State Fault Refusal :=
  .next (s.setStatus (statusAfter s.status code))

end Sys2Proof.Machine
end

