-- ==== Sys2Proof/Machine/BitWriter.lean ====
section
/-! DEFINITION. The BitWriter commands INIT, ADDBITS and FLUSH, and what a word that is no legal command does. -/

namespace Sys2Proof.Machine

/-- INIT (40_bitwriter.md R101). -/
def execInit (s : State) : Host.Outcome State Fault Refusal :=
  .next ((s.setBw ⟨0, 0, s.bufBase⟩).setStatus (statusAfterInit .ok))

/-- ADDBITS: append `width` bits of ARG (40_bitwriter.md R106). -/
def execAddbits (width : Nat) (s : State) : Host.Outcome State Fault Refusal :=
  if ¬ AddFits s.bw width then raiseError .registerOverflow s
  else if 2 ^ width ≤ valueOperand s then raiseError .valueTooWide s
  else complete (s.setBw (bwAdd s.bw (valueOperand s) width))

/-- FLUSH: commit the completed bytes (40_bitwriter.md R107). -/
def execFlush (s : State) : Host.Outcome State Fault Refusal :=
  if ¬ FlushFits s.bufBase s.bufEnd s.bw.cursor then raiseError .bufferTooSmall s
  else complete ((s.setMem (memWrite4 s.mem s.bw.cursor.toNat s.bw.acc)).setBw (bwFlush s.bw))

/-- Executing `Illegal` (30_encoding.md R85; 60_exceptions.md R171). -/
def execIllegal (s : State) : Host.Outcome State Fault Refusal :=
  raiseError .illegalCommand s

end Sys2Proof.Machine
end

