-- ==== Sys2Proof/Machine/NCount.lean ====
section
/-! DEFINITION. The NCountEncoder command ENCODE (41_ncount_encoder.md), one function per named step of its rules. -/

namespace Sys2Proof.Machine

/-- The loop of `Scan` from index `i` (41_ncount_encoder.md R132). Every valid entry lowers the deficit by at least 1, so
`fuel >= deficit` never runs out (R145). `maxCnt` is read only once `i > 0`. -/
def scanFrom (entry : Nat → Int) (limit : Nat) :
    (fuel i deficit : Nat) → (maxCnt : Int) → Except ResultCode (Nat × Int)
  | 0, i, _, maxCnt => .ok (i, maxCnt)
  | fuel + 1, i, deficit, maxCnt =>
    if deficit = 0 then .ok (i, maxCnt)
    else if limit ≤ i then .error .coverageMismatch
    else if entry i = 0 ∨ entry i < -1 then .error .invalidCount
    else if deficit < (entry i).natAbs then .error .coverageMismatch
    else scanFrom entry limit fuel (i + 1) (deficit - (entry i).natAbs)
      (if i = 0 then entry i else max maxCnt (entry i))

/-- `Scan(tl)`: the number of entries and the greatest raw count (41_ncount_encoder.md R132). -/
def scan (entry : Nat → Int) (limit tl : Nat) : Except ResultCode (Nat × Int) :=
  scanFrom entry limit (2 ^ tl) 0 (2 ^ tl) 0

/-- The mode a table is coded in (41_ncount_encoder.md R134). -/
inductive Mode where
  | exact
  | overflow
  | underflow
  deriving DecidableEq, Repr

/-- `SelectMode`'s comparison of `k0raw` with `tl - 1` (41_ncount_encoder.md R134). -/
def selectMode (tl maxCnt : Nat) : Mode :=
  if bitlength (maxCnt + 1) + 1 = tl - 1 then .exact
  else if bitlength (maxCnt + 1) + 1 > tl - 1 then .overflow
  else .underflow

/-- The mode selector's value (30_encoding.md R91). -/
def modeValue : Mode → Nat
  | .exact => 1
  | .overflow => 0
  | .underflow => 2

/-- The mode selector's width (30_encoding.md R91). -/
def modeWidth : Mode → Nat
  | .exact => 1
  | .overflow => 2
  | .underflow => 2

/-- `k0` after mode selection (41_ncount_encoder.md R134). -/
def fixedWidth (tl : Nat) : Mode → Nat
  | .exact => tl - 1
  | .overflow => tl + 1
  | .underflow => tl - 2

/-- `n0` (41_ncount_encoder.md R135). -/
def threshold (k0 : Nat) : Nat := 2 ^ k0 - 1

/-- `FieldCode(c, deficit, k0, n0)`: a field's (value, width) (41_ncount_encoder.md R136). -/
def fieldCode (c : Int) (deficit k0 n0 : Nat) : Nat × Nat :=
  let x := (c + 1).toNat
  let n := deficit + 1
  if n < n0 then
    let k := bitlength n
    let u := 2 ^ (k + 1) - n
    if u ≤ x then (x + u, k + 1) else (x, k)
  else (x, k0)

/-- One BitWriter operation of ENCODE's plan (41_ncount_encoder.md R137). -/
inductive BwOp where
  | add (value width : Nat)
  | flush
  deriving DecidableEq, Repr

/-- The operations of `remaining` entries from index `i`: each entry's field, then a flush (41_ncount_encoder.md R137). -/
def planFrom (entry : Nat → Int) (k0 n0 : Nat) : (remaining i deficit : Nat) → List BwOp
  | 0, _, _ => []
  | remaining + 1, i, deficit =>
    .add (fieldCode (entry i) deficit k0 n0).1 (fieldCode (entry i) deficit k0 n0).2 :: .flush ::
      planFrom entry k0 n0 remaining (i + 1) (deficit - (entry i).natAbs)

/-- `Plan`: the two header fields, then the entries (41_ncount_encoder.md R137). -/
def plan (entry : Nat → Int) (tl n : Nat) (mode : Mode) : List BwOp :=
  .add (tl - 5) 3 :: .add (modeValue mode) (modeWidth mode) ::
    planFrom entry (fixedWidth tl mode) (threshold (fixedWidth tl mode)) n 0 (2 ^ tl)

/-- The trial run of `RunAndCommit`: the BitWriter state after the operations and the writes in order, or the first
failing check (41_ncount_encoder.md R139). -/
def runOps (policy : OverwidePolicy) (bufBase bufEnd : Word) :
    List BwOp → BitWriter → Except ResultCode (BitWriter × List (Word × Word))
  | [], b => .ok (b, [])
  | .add value width :: ops, b =>
    if ¬ AddFits b width then .error .registerOverflow
    else runOps policy bufBase bufEnd ops (bwAdd b (applyPolicy policy value width) width)
  | .flush :: ops, b =>
    if ¬ FlushFits bufBase bufEnd b.cursor then .error .bufferTooSmall
    else
      match runOps policy bufBase bufEnd ops (bwFlush b) with
      | .error code => .error code
      | .ok (b', writes) => .ok (b', (b.cursor, b.acc) :: writes)

/-- What ENCODE plans to do: its checks before the trial run, then the plan (41_ncount_encoder.md R131 to R137). -/
def encodePlan (tl : Nat) (s : State) : Except ResultCode (List BwOp) :=
  if tl < 5 ∨ 8 < tl then .error .invalidTableLog
  else
    match scan (entryRead s) (entryLimit s) tl with
    | .error code => .error code
    | .ok (n, maxCnt) =>
      if maxCnt ≤ 0 then .error .coverageMismatch
      else .ok (plan (entryRead s) tl n (selectMode tl maxCnt.toNat))

/-- ENCODE up to its commit, under either `OVERWIDE_POLICY` (41_ncount_encoder.md R131, R139, R140). -/
def encodeTrial (policy : OverwidePolicy) (tl : Nat) (s : State) : Except ResultCode (BitWriter × List (Word × Word)) :=
  match encodePlan tl s with
  | .error code => .error code
  | .ok ops => runOps policy s.bufBase s.bufEnd ops s.bw

/-- ENCODE under either `OVERWIDE_POLICY`: the commit of a trial run that passed, else the error alone
(41_ncount_encoder.md R131, R139). -/
def encodeUnder (policy : OverwidePolicy) (tl : Nat) (s : State) : Host.Outcome State Fault Refusal :=
  match encodeTrial policy tl s with
  | .error code => raiseError code s
  | .ok (b, writes) => complete ((s.setMem (commitWrites s.mem writes)).setBw b)

/-- ENCODE on this hardware (41_ncount_encoder.md R131). -/
def execEncode (tl : Nat) (s : State) : Host.Outcome State Fault Refusal :=
  encodeUnder overwidePolicy tl s

end Sys2Proof.Machine
end

