-- ==== Sys2Proof/Machine/Dispatch.lean ====
section
/-! DEFINITION. One arm per command, each a direct call of its meaning. -/

namespace Sys2Proof.Machine

def exec (i : Instr) (s : State) : Host.Outcome State Fault Refusal :=
  match i with
  | .init => Sys2Proof.Machine.execInit s
  | .addbits width => Sys2Proof.Machine.execAddbits width s
  | .flush => Sys2Proof.Machine.execFlush s
  | .encode tableLog => Sys2Proof.Machine.execEncode tableLog s

end Sys2Proof.Machine
end

