-- ==== Sys2Proof/Machine/HostBus.lean ====
section
/-! DEFINITION. What each host access does (20_memory.md R50, R61 to R66; 70_reset_and_hazards.md R200, R206). -/

namespace Sys2Proof.Machine

/-- A write of a word to CMD: the command it encodes, or ILLEGAL_COMMAND (10_state.md R22; 30_encoding.md R85). -/
def runCommand (w : Word) (s : State) : Host.Outcome State Fault Refusal :=
  match decode w with
  | .ok i => exec i s
  | .error _ => execIllegal s

/-- A 32-bit write at a word-aligned offset: read-only registers and unmapped offsets ignore it (20_memory.md R62, R63). -/
def writeOffset (offset : Nat) (data : Word) (s : State) : Host.Outcome State Fault Refusal :=
  match registerAt offset with
  | some .cmd => runCommand data s
  | some .arg => .next (s.setArg data)
  | some .bufBase => .next (s.setBufBase data)
  | some .bufEnd => .next (s.setBufEnd data)
  | some .entryCount => .next (s.setEntryCount data)
  | some .status => .next s
  | some .cursor => .next s
  | some .acc => .next s
  | some .fill => .next s
  | none => .next s

/-- A register access is in the interface: 32 bits at a word-aligned offset (20_memory.md R61). -/
abbrev InInterface (bytes offset : Nat) : Prop := bytes = 4 ∧ offset % 4 = 0

/-- The reset input: every register to its reset value; output memory, the entry source and the host's own record are left
alone (70_reset_and_hazards.md R200). -/
def resetRegisters (s : State) : State :=
  { State.reset with
    mem := s.mem, entries := s.entries, pending := s.pending, responses := s.responses, epoch := s.epoch }

/-- The byte a host read of output memory returns: a free value where no step has written one (log entry 3). -/
def hostByte (address : Nat) (s : State) : Byte :=
  match readByte s.mem address with
  | some b => b
  | none => Config.unwrittenByte s.epoch address

/-- One host access, performed on the state it has been taken off. -/
def performAccess (a : HostAccess) (s : State) : Host.Outcome State Fault Refusal :=
  match a with
  | .regWrite bytes offset data =>
    if registerSpaceSize ≤ offset then .fault (.noSuchOffset offset)
    else if ¬ InInterface bytes offset then .refused (.outsideInterface bytes offset)
    else writeOffset offset data s
  | .regRead bytes offset =>
    if registerSpaceSize ≤ offset then .fault (.noSuchOffset offset)
    else if ¬ InInterface bytes offset then .refused (.outsideInterface bytes offset)
    else .next (s.respond (.reg offset (readOffset offset s)))
  | .reset => .next (resetRegisters s)
  | .memWrite address data =>
    if addressSpaceSize ≤ address then .fault (.noSuchAddress address)
    else .next (s.setMem (writeByte s.mem address data))
  | .memRead address =>
    if addressSpaceSize ≤ address then .fault (.noSuchAddress address)
    else .next (s.respond (.mem address (hostByte address s)))
  | .supplyEntries counts => .next (s.setEntries counts)
  | .sourceWrite index data => .next (s.setEntries (entriesWith s index data))
  | .sourceRead index => .next (s.respond (.entry index (entryWord s index)))
  | .foreignAccess => .refused .exclusiveUseBroken

/-- The host access that queues a CMD write of `w` (10_state.md R22). -/
def cmdWrite (w : Word) : HostAccess := .regWrite 4 (registerOffset .cmd) w

/-- The host puts a write at one of its own addresses, last in the queue. DESIGN CHOICE: the address of the access's first byte
alone selects the block, so an access that begins outside the window at `REG_BASE` does not reach it, even where later bytes
would fall inside (20_memory.md R61, R71; log entry 7). -/
def State.postBusWrite (s : State) (bytes hostAddress : Nat) (data : Word) : State :=
  match windowOffset Config.regBase hostAddress with
  | some offset => { s with pending := s.pending ++ [.regWrite bytes offset data] }
  | none => s

/-- The host puts a read at one of its own addresses, last in the queue. DESIGN CHOICE: the first byte's address alone selects
the block, as for a write (20_memory.md R61, R71; log entry 7). -/
def State.postBusRead (s : State) (bytes hostAddress : Nat) : State :=
  match windowOffset Config.regBase hostAddress with
  | some offset => { s with pending := s.pending ++ [.regRead bytes offset] }
  | none => s

end Sys2Proof.Machine
end

