-- ==== Sys2Proof/Machine/Step.lean ====
section
/-! DEFINITION. One step: the next host access, whole (00_scope.md R10; 20_memory.md R64). -/

namespace Sys2Proof.Machine

/-- With no access to come, the block is idle and keeps all its state (60_exceptions.md R187). -/
def step (s : State) : Host.Outcome State Fault Refusal :=
  match s.pending with
  | [] => .next s
  | a :: rest => performAccess a (s.takeAccess rest)

/-- The state whose next step is a CMD write of the table word `w`. The state itself where no 32-bit command word
stands for it. -/
def State.withFetchWord (s : State) (nbits w : Nat) : State :=
  match tableWord nbits w with
  | some word => s.putAccess (cmdWrite word)
  | none => s

end Sys2Proof.Machine
end

