-- ==== Sys2Proof/Machine/Assembler.lean ====
section
/-! DEFINITION. The spec's notation for commands and host accesses (30_encoding.md R88 to R90): a command's tokens to its
word, and the accesses that each notation stands for. -/

namespace Sys2Proof.Machine

/-- A letter in upper case: mnemonics are case-insensitive (30_encoding.md R88). -/
def upperChar (c : Char) : Char := if 'a' ≤ c ∧ c ≤ 'z' then Char.ofNat (c.toNat - 32) else c

/-- The value of a digit in upper case, if it is one in this base. -/
def digitValue (base : Nat) (c : Char) : Option Nat :=
  let v := if '0' ≤ c ∧ c ≤ '9' then c.toNat - '0'.toNat else if 'A' ≤ c ∧ c ≤ 'F' then c.toNat - 'A'.toNat + 10 else base
  if v < base then some v else none

/-- The number that digits denote after the value `acc`; none where one of them is no digit. -/
def digitsFrom (base : Nat) : (acc : Nat) → List Char → Option Nat
  | acc, [] => some acc
  | acc, c :: cs =>
    match digitValue base c with
    | some v => digitsFrom base (acc * base + v) cs
    | none => none

/-- A decimal or 0x-hex integer (30_encoding.md R88). DESIGN CHOICE: the prefix may also be 0X, hex digits may be in either case,
and leading zeros are allowed. Log entry 23. -/
def integerToken (t : List Char) : Option Nat :=
  match t.map upperChar with
  | [] => none
  | ['0', 'X'] => none
  | '0' :: 'X' :: c :: cs => digitsFrom 16 0 (c :: cs)
  | c :: cs => digitsFrom 10 0 (c :: cs)

/-- The word of a command with an operand, if the operand is in its range (30_encoding.md R88). -/
def wordIfWellFormed (i : Instr) : Option Word := if i.wellFormed then some (encode i) else none

/-- The word that the tokens of one line stand for; none where the line is not in the syntax (30_encoding.md R88).
DESIGN CHOICE: the directive `.word` may be in either case like a mnemonic, the bare word after it may also be decimal, and
ENCODE's operand, for which R88 gives no written form, takes the forms of ADDBITS's, decimal or 0x-hex. Log entry 23. -/
def assemble : List (List Char) → Option Word
  | [m] =>
    if m.map upperChar = ['I', 'N', 'I', 'T'] then some (encode .init)
    else if m.map upperChar = ['F', 'L', 'U', 'S', 'H'] then some (encode .flush)
    else none
  | [m, t] =>
    match integerToken t with
    | none => none
    | some n =>
      if m.map upperChar = ['A', 'D', 'D', 'B', 'I', 'T', 'S'] then wordIfWellFormed (.addbits n)
      else if m.map upperChar = ['E', 'N', 'C', 'O', 'D', 'E'] then wordIfWellFormed (.encode n)
      else if m.map upperChar = ['.', 'W', 'O', 'R', 'D'] ∧ n < 2 ^ 32 then some (BitVec.ofNat 32 n)
      else none
  | _ => none

/-- `WR <reg>, <imm32>` (30_encoding.md R89). -/
def wr (r : Register) (v : Word) : HostAccess := .regWrite 4 (registerOffset r) v

/-- `RD <reg>` (30_encoding.md R89). -/
def rd (r : Register) : HostAccess := .regRead 4 (registerOffset r)

/-- `CMD <command>` (30_encoding.md R89). -/
def cmd (i : Instr) : HostAccess := wr .cmd (encode i)

/-- `PUT <v>, <w>` (30_encoding.md R90). -/
def put (v : Word) (w : Nat) : List HostAccess := [wr .arg v, cmd (.addbits w)]

/-- `PUTF <v>, <w>` (30_encoding.md R90). -/
def putf (v : Word) (w : Nat) : List HostAccess := put v w ++ [cmd .flush]

/-- `SETBUF <base>, <end>` (30_encoding.md R90). -/
def setbuf (bufBase bufEnd : Word) : List HostAccess := [wr .bufBase bufBase, wr .bufEnd bufEnd, cmd .init]

end Sys2Proof.Machine
end

