-- ==== Sys2Proof/Safety.lean ====
section
/-! DEFINITION. What claims are stated in: the invariant, reachable states, tables, streams and ENCODE's operations
performed one by one. -/

namespace Sys2Proof.Machine

/-! ## Invariants -/

/-- No 1 bit of ACC stands at or above FILL (10_state.md R29, R33: no stray bit). -/
abbrev BitWriter.Clean (b : BitWriter) : Prop := b.acc.toNat < 2 ^ b.fill.toNat

/-- The only 1 bit of ACC at or above FILL may stand at FILL itself (10_state.md R33: at most the stray bit). -/
abbrev BitWriter.StrayAtMost (b : BitWriter) : Prop := b.acc.toNat < 2 ^ (b.fill.toNat + 1)

/-- The invariant of every run: output memory keeps its canonical form, FILL is at most 32 (10_state.md R31), and ACC holds
at most the stray bit above its valid bits (R33). -/
structure State.Inv (s : State) : Prop where
  memory : Memory.wf s.mem
  fill   : s.bw.fill.toNat ≤ 32
  acc    : s.bw.StrayAtMost

/-- The states reachable from reset, whatever output memory and entry source the host owns and whatever accesses it
makes (70_reset_and_hazards.md R210). -/
inductive Reachable : State → Prop where
  | reset (m : Memory) (counts : List Word) (accesses : List HostAccess) (hm : Memory.wf m) :
      Reachable { State.reset with mem := m, entries := counts, pending := accesses }
  | step (s t : State) (hs : Reachable s) (h : Machine.step s = .next t) : Reachable t
  | post (s : State) (a : HostAccess) (hs : Reachable s) : Reachable { s with pending := s.pending ++ [a] }

/-! ## Tables -/

/-- The coverage of the first `n` entries: the sum of `|cnt|` (41_ncount_encoder.md R132, R138). -/
def coverage (entry : Nat → Int) : Nat → Nat
  | 0 => 0
  | n + 1 => coverage entry n + (entry n).natAbs

/-- A count a table may hold: positive, or the sentinel -1 (41_ncount_encoder.md R132). -/
abbrev ValidCount (c : Int) : Prop := c = -1 ∨ 0 < c

/-- The first `n` entries are a table of size `2^tl` within the declared length: valid counts that sum to `2^tl`. -/
structure IsTable (entry : Nat → Int) (limit tl n : Nat) : Prop where
  within : n ≤ limit
  valid  : ∀ i < n, ValidCount (entry i)
  total  : coverage entry n = 2 ^ tl

/-- `m` is the greatest raw count among the first `n` entries (41_ncount_encoder.md R132). -/
structure IsMaxCount (entry : Nat → Int) (n : Nat) (m : Int) : Prop where
  attained : ∃ i < n, entry i = m
  greatest : ∀ i < n, entry i ≤ m

/-- A scan that has not ended before entry `i`: the first `i` counts are valid and leave a positive deficit. -/
structure ScanReaches (entry : Nat → Int) (tl i : Nat) : Prop where
  valid   : ∀ j < i, ValidCount (entry j)
  deficit : coverage entry i < 2 ^ tl

/-- Entry `i`'s field in the plan of a table: the field code at the deficit the entries before it leave
(41_ncount_encoder.md R137, R138). -/
def entryField (entry : Nat → Int) (tl : Nat) (mode : Mode) (i : Nat) : Nat × Nat :=
  fieldCode (entry i) (2 ^ tl - coverage entry i) (fixedWidth tl mode) (threshold (fixedWidth tl mode))

/-- Entry `i` takes the truncated-binary path (41_ncount_encoder.md R136). -/
abbrev TakesTruncated (entry : Nat → Int) (tl : Nat) (mode : Mode) (i : Nat) : Prop :=
  2 ^ tl - coverage entry i + 1 < threshold (fixedWidth tl mode)

/-! ## Streams -/

/-- The bits one add appends: `width` bits of the value, bit 0 first (20_memory.md R55). -/
def fieldBits (value width : Nat) : List Bool := (List.range width).map value.testBit

/-- The stream bits a list of operations appends (20_memory.md R55). -/
def streamBits : List BwOp → List Bool
  | [] => []
  | .add value width :: ops => fieldBits value width ++ streamBits ops
  | .flush :: ops => streamBits ops

/-- The stream bits a successful command appends (20_memory.md R55). -/
def commandBits (i : Instr) (s : State) : List Bool :=
  match i with
  | .init => []
  | .addbits width => fieldBits (valueOperand s) width
  | .flush => []
  | .encode tl =>
    match encodePlan tl s with
    | .ok ops => streamBits ops
    | .error _ => []

/-- Bit `p` of the output stream in memory, counted from the byte at `base` (20_memory.md R55). -/
def memoryBit (m : Memory) (base p : Nat) : Option Bool :=
  (readByte m (base + p / 8)).map (fun b => b.getLsbD (p % 8))

/-- The machine carries `stream`, the bits added since an INIT at `base`: whole bytes below CURSOR in memory, the rest in
ACC (20_memory.md R55). -/
structure Carries (base : Word) (stream : List Bool) (s : State) : Prop where
  cursor    : base.toNat ≤ s.bw.cursor.toNat
  fill      : s.bw.fill.toNat ≤ 32
  length    : stream.length = 8 * (s.bw.cursor.toNat - base.toNat) + s.bw.fill.toNat
  committed : ∀ p < 8 * (s.bw.cursor.toNat - base.toNat), memoryBit s.mem base.toNat p = stream[p]?
  held      : ∀ q < s.bw.fill.toNat,
    some (s.bw.acc.getLsbD q) = stream[8 * (s.bw.cursor.toNat - base.toNat) + q]?

/-- The bits held in ACC also stand in the byte at CURSOR (20_memory.md R55, after a FLUSH or an ENCODE). -/
def HeldInMemory (s : State) : Prop :=
  ∀ q < s.bw.fill.toNat, memoryBit s.mem s.bw.cursor.toNat q = some (s.bw.acc.getLsbD q)

/-- What a run that ends in a state shows (70_reset_and_hazards.md R210). -/
structure Observation where
  status : Status
  cursor : Word
  acc    : Word
  fill   : Nat
  /-- The output bytes [B, CURSOR + ceil(FILL/8)). -/
  bytes  : List (Option Byte)
  /-- The stream length L = 8*(CURSOR - B) + FILL, which the host computes. -/
  length : Nat
  deriving DecidableEq, Repr

/-- The observation of a run whose last INIT copied `base` (70_reset_and_hazards.md R210). -/
def observe (base : Word) (s : State) : Observation where
  status := s.status
  cursor := s.bw.cursor
  acc    := s.bw.acc
  fill   := s.bw.fill.toNat
  bytes  := (List.range (s.bw.cursor.toNat - base.toNat + (s.bw.fill.toNat + 7) / 8)).map
    fun k => readByte s.mem (base.toNat + k)
  length := 8 * (s.bw.cursor.toNat - base.toNat) + s.bw.fill.toNat

/-! ## Flushes that fail -/

/-- No flush happens in this state: FLUSH fails with BUFFER_TOO_SMALL, and no ENCODE succeeds (20_memory.md R56). -/
def NoFlushSucceeds (s : State) : Prop :=
  exec .flush s = .next (s.setStatus ⟨.bufferTooSmall, true⟩) ∧
  ∀ tl, ∃ code, code ≠ .ok ∧ exec (.encode tl) s = .next (s.setStatus ⟨code, true⟩)

/-! ## ENCODE's operations one by one -/

/-- The operations performed one after another on the machine itself, each flush writing memory at once, up to the first
failing check: what ENCODE's commit is compared with (41_ncount_encoder.md R139). -/
def performOps (policy : OverwidePolicy) : List BwOp → State → Except ResultCode State
  | [], s => .ok s
  | .add value width :: ops, s =>
    if ¬ AddFits s.bw width then .error .registerOverflow
    else performOps policy ops (s.setBw (bwAdd s.bw (applyPolicy policy value width) width))
  | .flush :: ops, s =>
    if ¬ FlushFits s.bufBase s.bufEnd s.bw.cursor then .error .bufferTooSmall
    else performOps policy ops ((s.setMem (memWrite4 s.mem s.bw.cursor.toNat s.bw.acc)).setBw (bwFlush s.bw))

end Sys2Proof.Machine
end

