-- ==== Sys2Proof/Certificates/Slice0/Obligations.lean ====
section
/-! DEFINITION. The statements for the provers. OBLIGATIONS.json gives each its title, tier and rules. -/

open Sys2Proof Sys2Proof.Machine

/-! ## Encoding -/

/-- 30_encoding.md R84: which words select which command, by mask and match, with the operands of R82 and R83; a word that
selects none raises ILLEGAL_COMMAND. -/
def Obligations.OpcodeMapSelectsTheCommand : Prop :=
  ∀ w : Word,
    (decode w = .ok .init ↔ w &&& 0xFFFFFFFF#32 = 0x00000001#32) ∧
    (∀ width, decode w = .ok (.addbits width) ↔
      w &&& 0xFFFFFC0F#32 = 0x00000002#32 ∧ width = w.toNat / 2 ^ 4 % 2 ^ 6) ∧
    (decode w = .ok .flush ↔ w &&& 0xFFFFFFFF#32 = 0x00000003#32) ∧
    (∀ tl, decode w = .ok (.encode tl) ↔
      w &&& 0xFFFFFF0F#32 = 0x00000004#32 ∧ tl = w.toNat / 2 ^ 4 % 2 ^ 4) ∧
    ((∀ i, decode w ≠ .ok i) → ∀ s rest, s.pending = cmdWrite w :: rest →
      step s = .next ((s.takeAccess rest).setStatus ⟨.illegalCommand, true⟩))

/-- 30_encoding.md R86, 60_exceptions.md R171: the illegal encodings are OP 0x0, OP 0x5..0xF and any legal OP with a nonzero
reserved bit; each raises ILLEGAL_COMMAND and only STATUS changes. Every other word decodes. -/
def Obligations.IllegalWordsRaiseIllegalCommand : Prop :=
  ∀ w : Word,
    let op := w.toNat % 16
    let illegal := op = 0 ∨ 5 ≤ op ∨ ((op = 1 ∨ op = 3) ∧ w.toNat / 2 ^ 4 ≠ 0) ∨ (op = 2 ∧ w.toNat / 2 ^ 10 ≠ 0) ∨
      (op = 4 ∧ w.toNat / 2 ^ 8 ≠ 0)
    (illegal → ∀ s rest, s.pending = cmdWrite w :: rest →
      step s = .next ((s.takeAccess rest).setStatus ⟨.illegalCommand, true⟩)) ∧
    (¬ illegal → ∃ i, decode w = .ok i)

/-- No bit of an encoding is dropped: every well-formed command is decoded from its word. -/
def Obligations.DecodeOfEncodeIsTheCommand : Prop :=
  ∀ i : Instr, i.wellFormed = true → decode (encode i) = .ok i

/-- Every legal word has one meaning: it is the word of the command it decodes to, which is well formed. -/
def Obligations.EncodeOfDecodeIsTheWord : Prop :=
  ∀ (w : Word) (i : Instr), decode w = .ok i → i.wellFormed = true ∧ encode i = w

/-- 30_encoding.md R81 to R83 and the examples of R88, written out. -/
def Obligations.SampleWordsDecode : Prop :=
  decode 0b00000000000000000000000000000001#32 = .ok .init ∧
  decode 0b00000000000000000000000001100010#32 = .ok (.addbits 6) ∧
  decode 0b00000000000000000000001000000010#32 = .ok (.addbits 32) ∧
  decode 0b00000000000000000000001111110010#32 = .ok (.addbits 63) ∧
  decode 0b00000000000000000000000000000011#32 = .ok .flush ∧
  decode 0b00000000000000000000000001010100#32 = .ok (.encode 5) ∧
  decode 0b00000000000000000000000010000100#32 = .ok (.encode 8) ∧
  decode 0#32 = .error (.illegalOpcode 0)

/-- 30_encoding.md R88, samples of the command syntax: INIT, FLUSH and ADDBITS spelled in upper case and ENCODE in lower case
stand for their words, at every operand in range, in decimal and in 0x-hex. The operands 64 of ADDBITS and 16 of ENCODE are refused,
the bare word 0xFFFFFFFF stands for itself, and 0x100000000 is refused. That ENCODE takes 0x-hex is the model's choice (log
entry 23). -/
def Obligations.CommandLinesStandForTheirWords : Prop :=
  assemble ["INIT".toList] = some 0x00000001 ∧ assemble ["FLUSH".toList] = some 0x00000003 ∧
  (∀ w < 64, ∀ t ∈ [Nat.toDigits 10 w, '0' :: 'x' :: Nat.toDigits 16 w],
    assemble ["ADDBITS".toList, t] = some (0x00000002#32 ||| BitVec.ofNat 32 w <<< 4)) ∧
  (∀ tl < 16, ∀ t ∈ [Nat.toDigits 10 tl, '0' :: 'x' :: Nat.toDigits 16 tl],
    assemble ["encode".toList, t] = some (0x00000004#32 ||| BitVec.ofNat 32 tl <<< 4)) ∧
  assemble ["ADDBITS".toList, "64".toList] = none ∧ assemble ["ENCODE".toList, "16".toList] = none ∧
  assemble [".word".toList, "0xFFFFFFFF".toList] = some 0xFFFFFFFF ∧ assemble [".word".toList, "0x100000000".toList] = none

/-- 30_encoding.md R87: legal encodings whose operand the command itself rejects. -/
def Obligations.RejectedOperandsAreLegalEncodings : Prop :=
  (∀ width, 33 ≤ width → width ≤ 63 →
    decode (0x00000002#32 ||| BitVec.ofNat 32 width <<< 4) = .ok (.addbits width) ∧
    ∀ s, exec (.addbits width) s = .next (s.setStatus ⟨.registerOverflow, true⟩)) ∧
  (∀ tl, tl ≤ 15 → tl < 5 ∨ 8 < tl →
    decode (0x00000004#32 ||| BitVec.ofNat 32 tl <<< 4) = .ok (.encode tl) ∧
    ∀ s, exec (.encode tl) s = .next (s.setStatus ⟨.invalidTableLog, true⟩))

/-! ## A step -/

/-- 10_state.md R22: a CMD write issues the command its word encodes, a word that is no legal command ends with
ILLEGAL_COMMAND, and a read of CMD gives 0. A step takes the access off the queue (`takeAccess`) and runs the command there.
The queue (log entry 1) and the last clause, about `withFetchWord` and table words (log entries 1 and 17), are the model's choice. -/
def Obligations.StepRunsTheDecodedCommand : Prop :=
  ∀ (s : State) (rest : List HostAccess) (w : Word),
    (s.pending = .regWrite 4 0x00 w :: rest → ∀ i, decode w = .ok i → step s = exec i (s.takeAccess rest)) ∧
    (s.pending = .regWrite 4 0x00 w :: rest → ∀ e, decode w = .error e →
      step s = .next ((s.takeAccess rest).setStatus ⟨.illegalCommand, true⟩)) ∧
    (s.pending = .regRead 4 0x00 :: rest → step s = .next ((s.takeAccess rest).respond (.reg 0x00 0))) ∧
    (∀ i, decode w = .ok i → step (s.withFetchWord 32 w.toNat) = exec i (s.takeAccess s.pending))

/-- 20_memory.md R62, with the offsets of 10_state.md R21: read/write registers store and return all 32 bits, read-only ones
ignore writes and return their value, CMD reads 0, and reads change nothing but the host's record. -/
def Obligations.RegisterAccessSemantics : Prop :=
  ∀ (s : State) (rest : List HostAccess) (v : Word),
    let s' := s.takeAccess rest
    (s.pending = .regWrite 4 0x00 v :: rest → step s = runCommand v s') ∧
    (s.pending = .regWrite 4 0x08 v :: rest → step s = .next (s'.setArg v)) ∧
    (s.pending = .regWrite 4 0x0C v :: rest → step s = .next (s'.setBufBase v)) ∧
    (s.pending = .regWrite 4 0x10 v :: rest → step s = .next (s'.setBufEnd v)) ∧
    (s.pending = .regWrite 4 0x14 v :: rest → step s = .next (s'.setEntryCount v)) ∧
    (∀ offset ∈ [0x04, 0x18, 0x1C, 0x20], s.pending = .regWrite 4 offset v :: rest → step s = .next s') ∧
    (∀ p ∈ [(0x00, 0), (0x04, statusWord s.status), (0x08, s.arg), (0x0C, s.bufBase), (0x10, s.bufEnd),
        (0x14, s.entryCount), (0x18, s.bw.cursor), (0x1C, s.bw.acc), (0x20, s.bw.fill.setWidth 32)],
      s.pending = .regRead 4 p.1 :: rest → step s = .next (s'.respond (.reg p.1 p.2)))

/-- 20_memory.md R63: unmapped word-aligned offsets read as 0 and ignore writes. -/
def Obligations.UnmappedOffsetsReadZeroAndIgnoreWrites : Prop :=
  ∀ (s : State) (rest : List HostAccess) (offset : Nat), 0x24 ≤ offset → offset ≤ 0xFC → offset % 4 = 0 →
    (s.pending = .regRead 4 offset :: rest → step s = .next ((s.takeAccess rest).respond (.reg offset 0))) ∧
    (∀ v, s.pending = .regWrite 4 offset v :: rest → step s = .next (s.takeAccess rest))

/-- 20_memory.md R61: a register access that is not 32-bit and word-aligned is refused; one that is always ends in a next
state. -/
def Obligations.OnlyAlignedWordAccessesAreInTheInterface : Prop :=
  ∀ (s : State) (rest : List HostAccess) (bytes offset : Nat) (v : Word), offset < 256 →
    (¬ (bytes = 4 ∧ offset % 4 = 0) →
      (s.pending = .regWrite bytes offset v :: rest → step s = .refused (.outsideInterface bytes offset)) ∧
      (s.pending = .regRead bytes offset :: rest → step s = .refused (.outsideInterface bytes offset))) ∧
    (bytes = 4 ∧ offset % 4 = 0 →
      (s.pending = .regWrite bytes offset v :: rest → ∃ t, step s = .next t) ∧
      (s.pending = .regRead bytes offset :: rest → ∃ t, step s = .next t))

/-- What does not exist faults: offsets outside the register space and addresses outside the 2^32 bytes of 20_memory.md R50
(log entry 8). An access by another agent during a command is refused (R66). -/
def Obligations.AccessesOutsideTheSpacesStop : Prop :=
  ∀ (s : State) (rest : List HostAccess) (bytes n : Nat) (v : Word) (b : Byte),
    (256 ≤ n → s.pending = .regWrite bytes n v :: rest → step s = .fault (.noSuchOffset n)) ∧
    (256 ≤ n → s.pending = .regRead bytes n :: rest → step s = .fault (.noSuchOffset n)) ∧
    (2 ^ 32 ≤ n → s.pending = .memWrite n b :: rest → step s = .fault (.noSuchAddress n)) ∧
    (2 ^ 32 ≤ n → s.pending = .memRead n :: rest → step s = .fault (.noSuchAddress n)) ∧
    (s.pending = .foreignAccess :: rest → step s = .refused .exclusiveUseBroken)

/-- The host owns output memory and the entry source (20_memory.md R50, R59): a byte it writes is the byte it reads next, no
other byte changes, and the words it supplies are what EntryRead gives, as signed 32-bit integers. -/
def Obligations.HostOwnsMemoryAndEntries : Prop :=
  ∀ (s : State) (rest : List HostAccess) (a : Nat) (b : Byte) (counts : List Word), a < 2 ^ 32 →
    (s.pending = .memWrite a b :: .memRead a :: rest → ∃ t u, step s = .next t ∧ step t = .next u ∧
      u.responses = .mem a b :: s.responses ∧ u.bw = s.bw ∧ u.status = s.status ∧
      ∀ a', a' ≠ a → readByte u.mem a' = readByte s.mem a') ∧
    (s.pending = .supplyEntries counts :: rest → ∃ t, step s = .next t ∧ t.bw = s.bw ∧ t.status = s.status ∧
      t.mem = s.mem ∧ ∀ i (h : i < counts.length), entryRead t i = counts[i].toInt)

/-- The host accesses the entry source entry by entry (20_memory.md R50; log entry 22): a word it writes is the word it reads next
and what EntryRead gives, no other supplied entry and no register or byte of memory changes, and a read of a supplied entry
changes only the model's record of the host. -/
def Obligations.HostReadsAndWritesSingleEntries : Prop :=
  ∀ (s : State) (rest : List HostAccess) (i : Nat) (v : Word),
    (s.pending = .sourceWrite i v :: .sourceRead i :: rest → ∃ t u, step s = .next t ∧ step t = .next u ∧
      u.responses = .entry i v :: s.responses ∧ entryRead u i = v.toInt ∧
      (∀ j < s.entries.length, j ≠ i → entryRead u j = entryRead s j) ∧ u.arg = s.arg ∧ u.bufBase = s.bufBase ∧
      u.bufEnd = s.bufEnd ∧ u.entryCount = s.entryCount ∧ u.bw = s.bw ∧ u.status = s.status ∧ u.mem = s.mem) ∧
    (∀ h : i < s.entries.length, s.pending = .sourceRead i :: rest →
      step s = .next ((s.takeAccess rest).respond (.entry i s.entries[i])))

/-- 60_exceptions.md R187: with no access to come the block is idle and keeps all its state. -/
def Obligations.IdleBlockKeepsItsState : Prop :=
  ∀ s : State, s.pending = [] → step s = .next s

/-- 20_memory.md R71: the register window lies at REG_BASE, whatever that is; a host address outside it does not select the
block (log entry 7). -/
def Obligations.WindowLiesAtRegBase : Prop :=
  ∀ (s : State) (bytes offset : Nat) (v : Word),
    (offset < 256 →
      (s.postBusWrite bytes (Config.regBase + offset) v).pending = s.pending ++ [.regWrite bytes offset v] ∧
      (s.postBusRead bytes (Config.regBase + offset)).pending = s.pending ++ [.regRead bytes offset]) ∧
    (∀ a, a < Config.regBase ∨ Config.regBase + 256 ≤ a → s.postBusWrite bytes a v = s ∧ s.postBusRead bytes a = s)

/-- 10_state.md R23, R30: the fields of the word STATUS reads as, at every state; FILL[31:6] reads 0. -/
def Obligations.StatusAndFillReadAsTheirFields : Prop :=
  ∀ s : State,
    (readRegister .status s).toNat = (resultNumber s.status.result).toNat + (if s.status.sticky then 16 else 0) ∧
    (resultNumber s.status.result).toNat ≤ 7 ∧ (readRegister .fill s).toNat = s.bw.fill.toNat

/-! ## Reset and invariants -/

/-- 10_state.md R36: what reset leaves, at the reset input and at the machine's start; every flush fails while
BUF_END has its reset value. -/
def Obligations.ResetZeroesEveryRegister : Prop :=
  (∀ (s : State) (rest : List HostAccess), s.pending = .reset :: rest → ∃ t, step s = .next t ∧
    t.status = ⟨.ok, false⟩ ∧ t.arg = 0 ∧ t.bufBase = 0 ∧ t.bufEnd = 0 ∧ t.entryCount = 0 ∧
    t.bw.cursor = 0 ∧ t.bw.acc = 0 ∧ t.bw.fill = 0 ∧ t.mem = s.mem ∧ t.entries = s.entries ∧
    exec .init t = .next t ∧ ∀ u : State, u.bufEnd = t.bufEnd → NoFlushSucceeds u) ∧
  State.reset.status = ⟨.ok, false⟩ ∧ State.reset.arg = 0 ∧ State.reset.bufBase = 0 ∧ State.reset.bufEnd = 0 ∧
  State.reset.entryCount = 0 ∧ State.reset.bw.cursor = 0 ∧ State.reset.bw.acc = 0 ∧ State.reset.bw.fill = 0

/-- The invariant holds at reset. -/
def Obligations.ResetMeetsTheInvariant : Prop := State.reset.Inv

/-- The invariant (memory in canonical form, FILL at most 32, at most the stray bit above FILL) is kept by every step: by
every command and every other host access, from every state that has it. -/
def Obligations.EveryStepKeepsTheInvariant : Prop :=
  ∀ s t : State, s.Inv → step s = .next t → t.Inv

/-- 10_state.md R31. -/
def Obligations.FillIsAtMost32InEveryReachableState : Prop :=
  ∀ s : State, Reachable s → s.bw.fill.toNat ≤ 32

/-- 10_state.md R32. -/
def Obligations.FillIsAtMost7AfterFlushAndEncode : Prop :=
  ∀ (i : Instr) (s t : State), (i = .flush ∨ ∃ tl, i = .encode tl) → exec i s = .next t → t.status.result = .ok →
    t.bw.fill.toNat ≤ 7

/-- 10_state.md R33: INIT, ADDBITS and FLUSH leave no bit at or above FILL where there was none. -/
def Obligations.OnlyEncodeLeavesABitAboveFill : Prop :=
  ∀ (i : Instr) (s t : State), (∀ tl, i ≠ .encode tl) → s.bw.fill.toNat ≤ 32 → s.bw.Clean → exec i s = .next t → t.bw.Clean

/-! ## The BitWriter commands -/

/-- 40_bitwriter.md R101: INIT's whole effect, from every state. It always succeeds; where BUF_BASE is at
or above BUF_END, every later flush fails, as long as these two registers keep their values. -/
def Obligations.InitEffect : Prop :=
  decode 0x00000001#32 = .ok .init ∧
  ∀ s : State, ∃ t, exec .init s = .next t ∧ t.bw.cursor = s.bufBase ∧ t.bw.acc = 0 ∧ t.bw.fill = 0 ∧
    t.status = ⟨.ok, false⟩ ∧ t = (s.setBw t.bw).setStatus t.status ∧
    (s.bufEnd.toNat ≤ s.bufBase.toNat → ∀ u : State, u.bufBase = t.bufBase → u.bufEnd = t.bufEnd → NoFlushSucceeds u)

/-- 40_bitwriter.md R106: ADDBITS in its three cases, checked in this order; the state it completes in, and nothing else changed
(CURSOR and memory among it). -/
def Obligations.AddbitsEffect : Prop :=
  ∀ width : Nat, (width < 64 → decode (0x00000002#32 ||| BitVec.ofNat 32 width <<< 4) = .ok (.addbits width)) ∧
  ∀ s : State,
    (32 < s.bw.fill.toNat + width →
      exec (.addbits width) s = .next (s.setStatus ⟨.registerOverflow, true⟩)) ∧
    (s.bw.fill.toNat + width ≤ 32 → 2 ^ width ≤ s.arg.toNat →
      exec (.addbits width) s = .next (s.setStatus ⟨.valueTooWide, true⟩)) ∧
    (s.bw.fill.toNat + width ≤ 32 → s.arg.toNat < 2 ^ width →
      ∃ b : BitWriter, exec (.addbits width) s = .next ((s.setBw b).setStatus ⟨.ok, s.status.sticky⟩) ∧
        b.acc.toNat = s.bw.acc.toNat ||| s.arg.toNat * 2 ^ s.bw.fill.toNat ∧
        b.fill.toNat = s.bw.fill.toNat + width ∧ b.cursor = s.bw.cursor)

/-- 40_bitwriter.md R107 with the flush of R105: FLUSH in its two cases, the state it completes in, the four bytes it writes, and
nothing else changed. FILL is at most 32, as in every reachable state (R31). -/
def Obligations.FlushEffect : Prop :=
  decode 0x00000003#32 = .ok .flush ∧
  ∀ s : State,
    (s.bw.cursor.toNat < s.bufBase.toNat ∨ s.bufEnd.toNat < s.bw.cursor.toNat + 4 →
      exec .flush s = .next (s.setStatus ⟨.bufferTooSmall, true⟩)) ∧
    (s.bufBase.toNat ≤ s.bw.cursor.toNat → s.bw.cursor.toNat + 4 ≤ s.bufEnd.toNat → s.bw.fill.toNat ≤ 32 →
      ∃ (b : BitWriter) (m : Memory),
        exec .flush s = .next (((s.setMem m).setBw b).setStatus ⟨.ok, s.status.sticky⟩) ∧
        b.cursor.toNat = s.bw.cursor.toNat + s.bw.fill.toNat / 8 ∧
        b.fill.toNat = s.bw.fill.toNat % 8 ∧
        b.acc.toNat = s.bw.acc.toNat / 2 ^ (8 * (s.bw.fill.toNat / 8)) ∧
        (∀ j < 4, (readByte m (s.bw.cursor.toNat + j)).map BitVec.toNat = some (s.bw.acc.toNat / 2 ^ (8 * j) % 2 ^ 8)) ∧
        ∀ a, a < s.bw.cursor.toNat ∨ s.bw.cursor.toNat + 4 ≤ a → readByte m a = readByte s.mem a)

/-- 20_memory.md R53: the four bytes of a write, and that a write that fits the buffer stays inside the address space. -/
def Obligations.MemWriteStoresFourLittleEndianBytes : Prop :=
  (∀ (m : Memory) (addr : Nat) (v : Word),
    (∀ j < 4, readByte (memWrite4 m addr v) (addr + j) = some (v.extractLsb' (8 * j) 8)) ∧
    (∀ a, a < addr ∨ addr + 4 ≤ a → readByte (memWrite4 m addr v) a = readByte m a) ∧
    (Memory.wf m → addr + 4 ≤ 2 ^ 32 → Memory.wf (memWrite4 m addr v))) ∧
  (∀ bufBase bufEnd cursor : Word, FlushFits bufBase bufEnd cursor → ∀ j ≤ 3, cursor.toNat + j ≤ 2 ^ 32 - 1)

/-- 40_bitwriter.md R109: a second FLUSH leaves the BitWriter state alone and writes ACC's bytes again at CURSOR. -/
def Obligations.SecondFlushKeepsTheBitWriter : Prop :=
  ∀ s t u : State, exec .flush s = .next t → t.status.result = .ok → exec .flush t = .next u → u.status.result = .ok →
    t.bw.fill.toNat ≤ 7 ∧ u.bw = t.bw ∧
    (∀ j < 4, readByte u.mem (t.bw.cursor.toNat + j) = some (t.bw.acc.extractLsb' (8 * j) 8)) ∧
    ∀ a, a < t.bw.cursor.toNat ∨ t.bw.cursor.toNat + 4 ≤ a → readByte u.mem a = readByte t.mem a

/-- 40_bitwriter.md R110: six bits added at FILL = 5 split across the byte boundary. -/
def Obligations.SixBitsAtFillFiveSplit : Prop :=
  ∀ s : State, s.bw.fill.toNat = 5 → s.bw.acc.toNat < 2 ^ 5 → s.arg.toNat < 2 ^ 6 →
    s.bufBase.toNat ≤ s.bw.cursor.toNat → s.bw.cursor.toNat + 4 ≤ s.bufEnd.toNat →
    ∃ t u, exec (.addbits 6) s = .next t ∧ exec .flush t = .next u ∧ u.status.result = .ok ∧
      (readByte u.mem s.bw.cursor.toNat).map BitVec.toNat =
        some ((s.bw.acc.toNat ||| s.arg.toNat * 2 ^ 5) % 2 ^ 8) ∧
      u.bw.cursor.toNat = s.bw.cursor.toNat + 1 ∧ u.bw.fill.toNat = 3 ∧ u.bw.acc.toNat = s.arg.toNat / 2 ^ 3

/-- 40_bitwriter.md R108, for fields whose value fits (as ADDBITS guarantees, R104; log entry 19): adds each followed by a flush leave the same
BitWriter state and the same committed bytes as the same adds followed by one flush. -/
def Obligations.FlushingEachAddEqualsFlushingOnce : Prop :=
  ∀ (policy : OverwidePolicy) (lo hi : Word) (fields : List (Nat × Nat)) (b b1 b2 : BitWriter)
    (ws1 ws2 : List (Word × Word)),
    fields ≠ [] → (∀ f ∈ fields, f.1 < 2 ^ f.2) → b.fill.toNat + (fields.map Prod.snd).sum ≤ 32 →
    runOps policy lo hi (fields.flatMap fun f => [.add f.1 f.2, .flush]) b = .ok (b1, ws1) →
    runOps policy lo hi (fields.map (fun f => .add f.1 f.2) ++ [.flush]) b = .ok (b2, ws2) →
    b1 = b2 ∧ ∀ (m : Memory) (a : Nat), b.cursor.toNat ≤ a → a < b1.cursor.toNat →
      readByte (commitWrites m ws1) a = readByte (commitWrites m ws2) a

/-- 70_reset_and_hazards.md R204: after an ENCODE that left a stray bit, the first bit ADDBITS appends reads as 1. -/
def Obligations.AppendedBitMergesWithTheStrayBit : Prop :=
  ∀ (s t : State) (width : Nat), 1 ≤ width → s.bw.acc.getLsbD s.bw.fill.toNat = true →
    exec (.addbits width) s = .next t → t.status.result = .ok →
    s.bw.fill.toNat < t.bw.fill.toNat ∧ t.bw.acc.getLsbD s.bw.fill.toNat = true

/-! ## Every command -/

/-- 70_reset_and_hazards.md R209: every command, with any operand and from any state, ends in a next state; ENCODE reads at most
256 entries and performs at most 514 operations. -/
def Obligations.EveryCommandEndsInANextState : Prop :=
  (∀ (i : Instr) (s : State), ∃ t, exec i s = .next t) ∧
  (∀ (tl : Nat) (s : State) (ops : List BwOp), encodePlan tl s = .ok ops →
    ops.length ≤ 2 + 2 ^ (tl + 1) ∧ 2 + 2 ^ (tl + 1) ≤ 514) ∧
  (∀ (entry entry' : Nat → Int) (limit tl : Nat), (∀ i < min limit (2 ^ tl), entry i = entry' i) →
    scan entry limit tl = scan entry' limit tl)

/-- 60_exceptions.md R179: a command that does not end with OK changes nothing but STATUS. -/
def Obligations.FailingCommandChangesOnlyStatus : Prop :=
  ∀ (i : Instr) (s t : State), exec i s = .next t → t.status.result ≠ .ok →
    t = s.setStatus ⟨t.status.result, true⟩

/-- 60_exceptions.md R170: what every command leaves in STATUS, which codes each can end with, and the codes' numbers. -/
def Obligations.EveryCommandFinishesStatus : Prop :=
  (∀ (i : Instr) (s t : State), exec i s = .next t →
    (t.status.sticky = true ↔ i ≠ .init ∧ (s.status.sticky = true ∨ t.status.result ≠ .ok)) ∧
    match i with
    | .init => t.status.result = .ok
    | .addbits _ => t.status.result ∈ [ResultCode.ok, .registerOverflow, .valueTooWide]
    | .flush => t.status.result ∈ [ResultCode.ok, .bufferTooSmall]
    | .encode _ => t.status.result ∈
        [ResultCode.ok, .invalidTableLog, .coverageMismatch, .invalidCount, .registerOverflow, .bufferTooSmall]) ∧
  (∀ (w : Word) (e : DecodeError) (s : State), decode w = .error e →
    runCommand w s = .next (s.setStatus ⟨.illegalCommand, true⟩)) ∧
  [ResultCode.ok, .illegalCommand, .invalidTableLog, .coverageMismatch, .bufferTooSmall, .registerOverflow, .valueTooWide,
    .invalidCount].map (fun c => (resultNumber c).toNat) = [0, 1, 2, 3, 4, 5, 6, 7]

/-- 10_state.md R24 to R27, 20_memory.md R60: no command writes ARG, BUF_BASE, BUF_END, ENTRY_COUNT or the entry source (nor the
model's record of the host). -/
def Obligations.NoCommandWritesWhatTheHostWrites : Prop :=
  ∀ (i : Instr) (s t : State), exec i s = .next t →
    t.arg = s.arg ∧ t.bufBase = s.bufBase ∧ t.bufEnd = s.bufEnd ∧ t.entryCount = s.entryCount ∧ t.entries = s.entries ∧
    t.pending = s.pending ∧ t.responses = s.responses ∧ t.epoch = s.epoch

/-- 70_reset_and_hazards.md R202, 20_memory.md R51: no command changes a byte outside [BUF_BASE, BUF_END), and INIT and ADDBITS
change none. -/
def Obligations.NoCommandWritesOutsideTheBuffer : Prop :=
  ∀ (i : Instr) (s t : State), exec i s = .next t → ∀ a,
    a < s.bufBase.toNat ∨ s.bufEnd.toNat ≤ a ∨ i = .init ∨ (∃ width, i = .addbits width) →
    readByte t.mem a = readByte s.mem a

/-- 10_state.md R28, 20_memory.md R57: apart from INIT no command moves CURSOR back, and where one moves it, it stays at or below
BUF_END. -/
def Obligations.CursorOnlyMovesForward : Prop :=
  ∀ (i : Instr) (s t : State), i ≠ .init → s.bw.fill.toNat ≤ 32 → exec i s = .next t →
    s.bw.cursor.toNat ≤ t.bw.cursor.toNat ∧ (t.bw.cursor ≠ s.bw.cursor → t.bw.cursor.toNat ≤ s.bufEnd.toNat)

/-- 70_reset_and_hazards.md R203: bytes below CURSOR are final, and the valid bits that stand in the byte at CURSOR can be
rewritten but never changed. -/
def Obligations.CommittedBitsAreFinal : Prop :=
  ∀ (i : Instr) (s t : State), i ≠ .init → s.bw.fill.toNat ≤ 32 → exec i s = .next t →
    (∀ a < s.bw.cursor.toNat, readByte t.mem a = readByte s.mem a) ∧
    (HeldInMemory s → ∀ q < s.bw.fill.toNat,
      memoryBit t.mem s.bw.cursor.toNat q = some (s.bw.acc.getLsbD q))

/-- 60_exceptions.md R180: what a command does does not depend on the STATUS it finds, but for STICKY kept. -/
def Obligations.CommandsRunTheSameWhateverStatus : Prop :=
  ∀ (i : Instr) (s t : State) (st : Status), exec i s = .next t →
    ∃ st', exec i (s.setStatus st) = .next (t.setStatus st') ∧ st'.result = t.status.result ∧
      (st.sticky = true → i ≠ .init → st'.sticky = true)

/-- 70_reset_and_hazards.md R205: where the window does not hold CURSOR and three more bytes, FLUSH fails and no ENCODE
succeeds. -/
def Obligations.NoFlushOutsideTheWindow : Prop :=
  ∀ s : State, s.bw.cursor.toNat < s.bufBase.toNat ∨ s.bufEnd.toNat < s.bw.cursor.toNat + 4 →
    NoFlushSucceeds s

/-! ## ENCODE: checks -/

/-- 60_exceptions.md R172. -/
def Obligations.TableLogOutsideRangeIsRejectedFirst : Prop :=
  ∀ (tl : Nat) (s : State), tl < 5 ∨ 8 < tl → exec (.encode tl) s = .next (s.setStatus ⟨.invalidTableLog, true⟩)

/-- 41_ncount_encoder.md R132: `tl` is checked first; the scan ends well exactly on tables, with their length and greatest count,
and otherwise with the error of the first entry that has one; it reads no entry that it does not reach. -/
def Obligations.ScanVerdict : Prop :=
  ∀ (entry : Nat → Int) (limit tl : Nat),
    (∀ n m, scan entry limit tl = .ok (n, m) ↔ IsTable entry limit tl n ∧ IsMaxCount entry n m) ∧
    (∀ i, ScanReaches entry tl i →
      (limit ≤ i → scan entry limit tl = .error .coverageMismatch) ∧
      (i < limit → entry i = 0 ∨ entry i < -1 → scan entry limit tl = .error .invalidCount) ∧
      (i < limit → ValidCount (entry i) → 2 ^ tl < coverage entry (i + 1) →
        scan entry limit tl = .error .coverageMismatch)) ∧
    (∀ n m, scan entry limit tl = .ok (n, m) → 1 ≤ n) ∧
    (∀ entry' : Nat → Int, (∀ i < limit, ScanReaches entry tl i → entry i = entry' i) →
      scan entry' limit tl = scan entry limit tl) ∧
    (tl < 5 ∨ 8 < tl → ∀ s, exec (.encode tl) s = .next (s.setStatus ⟨.invalidTableLog, true⟩))

/-- 60_exceptions.md R173, R177: the count errors of ENCODE, each changing only STATUS. -/
def Obligations.CountErrorsOfEncode : Prop :=
  ∀ (tl : Nat) (s : State), 5 ≤ tl → tl ≤ 8 →
    (∀ i, ScanReaches (entryRead s) tl i →
      (s.entryCount.toNat ≤ i → exec (.encode tl) s = .next (s.setStatus ⟨.coverageMismatch, true⟩)) ∧
      (i < s.entryCount.toNat → entryRead s i = 0 ∨ entryRead s i < -1 →
        exec (.encode tl) s = .next (s.setStatus ⟨.invalidCount, true⟩)) ∧
      (i < s.entryCount.toNat → ValidCount (entryRead s i) → 2 ^ tl < coverage (entryRead s) (i + 1) →
        exec (.encode tl) s = .next (s.setStatus ⟨.coverageMismatch, true⟩))) ∧
    (∀ n, IsTable (entryRead s) s.entryCount.toNat tl n → (∀ i < n, entryRead s i ≤ 0) →
      exec (.encode tl) s = .next (s.setStatus ⟨.coverageMismatch, true⟩))

/-- 41_ncount_encoder.md R133: a scanned table fails the positivity check exactly when all its entries are the sentinel; else its
greatest count is 1..2^tl. -/
def Obligations.PositivityFailsExactlyOnSentinelTables : Prop :=
  ∀ (entry : Nat → Int) (limit tl n : Nat) (m : Int), scan entry limit tl = .ok (n, m) →
    (m ≤ 0 ↔ ∀ i < n, entry i = -1) ∧ (0 < m → 1 ≤ m ∧ m ≤ 2 ^ tl) ∧
    ∀ s : State, entryRead s = entry → s.entryCount.toNat = limit → 5 ≤ tl → tl ≤ 8 → m ≤ 0 →
      exec (.encode tl) s = .next (s.setStatus ⟨.coverageMismatch, true⟩)

/-! ## ENCODE: the code -/

/-- 41_ncount_encoder.md R149: the mode boundaries by greatest count, with each mode's k0. -/
def Obligations.ModeBoundaries : Prop :=
  ∀ tl m : Nat, 5 ≤ tl → tl ≤ 8 → 1 ≤ m → m ≤ 2 ^ tl →
    (selectMode tl m = .underflow ↔ m ≤ 2 ^ (tl - 2) - 2) ∧
    (selectMode tl m = .exact ↔ 2 ^ (tl - 2) - 1 ≤ m ∧ m ≤ 2 ^ (tl - 1) - 2) ∧
    (selectMode tl m = .overflow ↔ 2 ^ (tl - 1) - 1 ≤ m) ∧
    fixedWidth tl .underflow = tl - 2 ∧ fixedWidth tl .exact = tl - 1 ∧ fixedWidth tl .overflow = tl + 1

/-- 41_ncount_encoder.md R150: a sentinel lowers the deficit by 1, in both passes, and is coded as 0 in the active width. -/
def Obligations.SentinelLowersDeficitByOneAndCodesAsZero : Prop :=
  (∀ (entry : Nat → Int) (limit fuel i deficit : Nat) (m : Int), entry i = -1 → i < limit → 1 ≤ deficit → 1 ≤ i →
    scanFrom entry limit (fuel + 1) i deficit m = scanFrom entry limit fuel (i + 1) (deficit - 1) (max m (-1))) ∧
  (∀ (entry : Nat → Int) (k0 n0 r i deficit : Nat), entry i = -1 → 1 ≤ deficit →
    planFrom entry k0 n0 (r + 1) i deficit =
      .add 0 (if deficit + 1 < n0 then bitlength (deficit + 1) else k0) :: .flush ::
        planFrom entry k0 n0 r (i + 1) (deficit - 1))

/-- 41_ncount_encoder.md R141, R142: every field of a plan is 1..9 bits wide and at most `2^width`, so at most 512; only the last
field, before the last flush, can be over-wide. -/
def Obligations.OnlyTheLastFieldCanBeOverwide : Prop :=
  ∀ (tl : Nat) (s : State) (ops : List BwOp), encodePlan tl s = .ok ops →
    ∀ k value width, ops[k]? = some (.add value width) →
      1 ≤ width ∧ width ≤ tl + 1 ∧ value ≤ 2 ^ width ∧ value ≤ 512 ∧
      (value = 2 ^ width → k + 2 = ops.length)

/-- 41_ncount_encoder.md R143: no field of an overflow-mode table takes the fixed path. -/
def Obligations.OverflowModeNeverTakesTheFixedPath : Prop :=
  ∀ (entry : Nat → Int) (tl i : Nat), 2 ≤ tl →
    TakesTruncated entry tl .overflow i ∧
    (entryField entry tl .overflow i).2 ≤ bitlength (2 ^ tl - coverage entry i + 1) + 1

/-- 30_encoding.md R91: the stream ENCODE appends: the tableLog code in 3 bits, the mode selector in 1 or 2 bits, one field per
entry, contiguous and each least significant bit first; the selector is prefix-free, which the spec marks as
derived from the three selector values. -/
def Obligations.EncodeStreamLayout : Prop :=
  (∀ a b : Mode, a ≠ b → ¬ fieldBits (modeValue a) (modeWidth a) <+: fieldBits (modeValue b) (modeWidth b)) ∧
  ∀ (tl : Nat) (s : State) (n m : Nat), 5 ≤ tl → tl ≤ 8 → IsTable (entryRead s) s.entryCount.toNat tl n →
    IsMaxCount (entryRead s) n m → 1 ≤ m →
    commandBits (.encode tl) s =
      fieldBits (tl - 5) 3 ++
      (match selectMode tl m with | .exact => [true] | .overflow => [false, false] | .underflow => [false, true]) ++
      (List.range n).flatMap (fun i =>
        fieldBits (entryField (entryRead s) tl (selectMode tl m) i).1 (entryField (entryRead s) tl (selectMode tl m) i).2)

/-! ## ENCODE: trial run and commit -/

/-- 41_ncount_encoder.md R139: a planned ENCODE ends as performing its operations one by one ends, each flush writing memory at
once; but where one of them fails, nothing changes except STATUS. Under either policy. -/
def Obligations.EncodeIsItsPlanPerformedOrNothing : Prop :=
  ∀ (policy : OverwidePolicy) (tl : Nat) (s : State) (ops : List BwOp), encodePlan tl s = .ok ops →
    (∀ t, performOps policy ops s = .ok t → encodeUnder policy tl s = .next (t.setStatus ⟨.ok, s.status.sticky⟩)) ∧
    (∀ code, performOps policy ops s = .error code → encodeUnder policy tl s = .next (s.setStatus ⟨code, true⟩))

/-- ENCODE completes on every table that has a positive count, when its header and first field fit above FILL
(41_ncount_encoder.md R146) and the buffer has the sufficient size of R147; it ends where performing its plan ends, and the
stream grows by the plan's bits. -/
def Obligations.EncodeCompletesOnTables : Prop :=
  ∀ (tl : Nat) (s : State) (n m : Nat), 5 ≤ tl → tl ≤ 8 → IsTable (entryRead s) s.entryCount.toNat tl n →
    IsMaxCount (entryRead s) n m → 1 ≤ m →
    s.bw.fill.toNat + 3 + modeWidth (selectMode tl m) + (entryField (entryRead s) tl (selectMode tl m) 0).2 ≤ 32 →
    s.bufBase.toNat ≤ s.bw.cursor.toNat →
    s.bw.cursor.toNat + (s.bw.fill.toNat + 5 + 2 ^ tl * (tl + 1)) / 8 + 4 ≤ s.bufEnd.toNat →
    ∃ t, exec (.encode tl) s = .next t ∧ t.status = ⟨.ok, s.status.sticky⟩ ∧
      performOps .literal (plan (entryRead s) tl n (selectMode tl m)) s = .ok (t.setStatus s.status) ∧
      8 * t.bw.cursor.toNat + t.bw.fill.toNat =
        8 * s.bw.cursor.toNat + s.bw.fill.toNat + (commandBits (.encode tl) s).length ∧
      s.bw.cursor.toNat ≤ t.bw.cursor.toNat

/-- What ENCODE leaves unchanged: all registers but STATUS, ACC, FILL and CURSOR, and every byte outside the four-byte words its
trial run writes; a failed one leaves all of memory. -/
def Obligations.EncodeFrame : Prop :=
  ∀ (tl : Nat) (s t : State), exec (.encode tl) s = .next t →
    t = ((s.setMem t.mem).setBw t.bw).setStatus t.status ∧
    ∀ a, (∀ b ws, encodeTrial overwidePolicy tl s = .ok (b, ws) → ∀ p ∈ ws, a < p.1.toNat ∨ p.1.toNat + 4 ≤ a) →
      readByte t.mem a = readByte s.mem a

/-- 41_ncount_encoder.md R146: where REGISTER_OVERFLOW arises in ENCODE: exactly where FILL and the first three adds exceed 32
bits; never after INIT or a FLUSH, always from FILL 25. -/
def Obligations.EncodeOverflowsExactlyAtItsFirstFields : Prop :=
  ∀ (tl : Nat) (s : State) (n m : Nat), 5 ≤ tl → tl ≤ 8 → IsTable (entryRead s) s.entryCount.toNat tl n →
    IsMaxCount (entryRead s) n m → 1 ≤ m →
    let need := 3 + modeWidth (selectMode tl m) + (entryField (entryRead s) tl (selectMode tl m) 0).2
    (exec (.encode tl) s = .next (s.setStatus ⟨.registerOverflow, true⟩) ↔ 32 < s.bw.fill.toNat + need) ∧
    8 ≤ need ∧ (s.bw.fill.toNat ≤ 7 → s.bw.fill.toNat + need ≤ 32)

/-- 41_ncount_encoder.md R141, R144: after an ENCODE, FILL is at most 7 and ACC has a bit at or above FILL exactly when the last
entry is positive and on the truncated path and its 2^width has not been dropped at bit 32; that bit is at FILL. The policy
is LITERAL (log entry 2). -/
def Obligations.StrayBitAfterEncode : Prop :=
  ∀ (tl : Nat) (s t : State) (n m : Nat), 5 ≤ tl → tl ≤ 8 → IsTable (entryRead s) s.entryCount.toNat tl n →
    IsMaxCount (entryRead s) n m → 1 ≤ m → s.bw.StrayAtMost →
    exec (.encode tl) s = .next t → t.status.result = .ok →
    t.bw.fill.toNat ≤ 7 ∧
    t.bw.acc.toNat / 2 ^ t.bw.fill.toNat =
      if 0 < entryRead s (n - 1) ∧ TakesTruncated (entryRead s) tl (selectMode tl m) (n - 1) ∧
          ¬ (n = 1 ∧ s.bw.fill.toNat + 3 + modeWidth (selectMode tl m) +
            (entryField (entryRead s) tl (selectMode tl m) 0).2 = 32)
        then 1 else 0

/-- 41_ncount_encoder.md R148: ENCODE's result code, memory writes and BitWriter state depend on nothing but `tl`, the counts the
scan reads, ENTRY_COUNT, the starting BitWriter state, BUF_BASE, BUF_END and the policy. -/
def Obligations.EncodeDependsOnNothingElse : Prop :=
  ∀ (policy : OverwidePolicy) (tl : Nat) (s1 s2 t1 t2 : State),
    s1.bw = s2.bw → s1.bufBase = s2.bufBase → s1.bufEnd = s2.bufEnd → s1.entryCount = s2.entryCount →
    (∀ i < s1.entryCount.toNat, ScanReaches (entryRead s1) tl i → entryRead s1 i = entryRead s2 i) →
    encodeUnder policy tl s1 = .next t1 → encodeUnder policy tl s2 = .next t2 →
    t1.status.result = t2.status.result ∧ t1.bw = t2.bw ∧
    ∀ a, readByte s1.mem a = readByte s2.mem a → readByte t1.mem a = readByte t2.mem a

/-- 90_conflicts.md C3: under LITERAL and MASK an ENCODE ends with the same result, and every committed and every valid bit is the
same; only the bit at FILL, in ACC and in the byte at CURSOR, can differ. -/
def Obligations.PoliciesDifferOnlyInTheStrayBit : Prop :=
  ∀ (tl : Nat) (s t1 t2 : State), encodeUnder .literal tl s = .next t1 → encodeUnder .mask tl s = .next t2 →
    t1.status = t2.status ∧ t1.bw.fill = t2.bw.fill ∧ t1.bw.cursor = t2.bw.cursor ∧
    (∀ q, q ≠ t1.bw.fill.toNat → t1.bw.acc.getLsbD q = t2.bw.acc.getLsbD q) ∧
    (∀ a, a ≠ t1.bw.cursor.toNat → readByte t1.mem a = readByte t2.mem a) ∧
    (∀ q < 8, q ≠ t1.bw.fill.toNat → memoryBit t1.mem t1.bw.cursor.toNat q = memoryBit t2.mem t1.bw.cursor.toNat q)

/-! ## The stream -/

/-- INIT starts an empty stream at BUF_BASE (20_memory.md R55). -/
def Obligations.InitStartsTheStream : Prop :=
  ∀ s t : State, exec .init s = .next t → Carries s.bufBase [] t ∧ t.bw.Clean

/-- 20_memory.md R55: the stream-to-memory mapping, carried by every successful command from a state without a stray bit (FLUSH
from any state): each appends its bits, whole bytes below CURSOR stand in memory, the rest in ACC, and after FLUSH and ENCODE
also in the byte at CURSOR. -/
def Obligations.StreamToMemoryMapping : Prop :=
  ∀ (base : Word) (stream : List Bool) (i : Instr) (s t : State), i ≠ .init → Carries base stream s →
    i = .flush ∨ s.bw.Clean → exec i s = .next t → t.status.result = .ok →
    Carries base (stream ++ commandBits i s) t ∧ (i = .flush ∨ (∃ tl, i = .encode tl) → HeldInMemory t)

/-- 70_reset_and_hazards.md R210: what the host observes of a stream that ends with a FLUSH or an ENCODE: its length in bits, and
each of its bits in the observed bytes. -/
def Obligations.EndOfRunObservation : Prop :=
  ∀ (base : Word) (stream : List Bool) (s : State), Carries base stream s → HeldInMemory s →
    (observe base s).length = stream.length ∧
    (observe base s).bytes.length = (stream.length + 7) / 8 ∧
    ∀ p < stream.length,
      ((observe base s).bytes[p / 8]?.bind id).map (fun b => b.getLsbD (p % 8)) = stream[p]?
end

