-- ==== Sys2Proof/Laws/State.lean ====
section
/-! SUPPORT. Each update of the state, field by field. -/

namespace Sys2Proof.Machine

variable (s : State)

@[simp] theorem setStatus_status (v : Status) : (s.setStatus v).status = v := rfl
@[simp] theorem setStatus_arg (v : Status) : (s.setStatus v).arg = s.arg := rfl
@[simp] theorem setStatus_bufBase (v : Status) : (s.setStatus v).bufBase = s.bufBase := rfl
@[simp] theorem setStatus_bufEnd (v : Status) : (s.setStatus v).bufEnd = s.bufEnd := rfl
@[simp] theorem setStatus_entryCount (v : Status) : (s.setStatus v).entryCount = s.entryCount := rfl
@[simp] theorem setStatus_bw (v : Status) : (s.setStatus v).bw = s.bw := rfl
@[simp] theorem setStatus_mem (v : Status) : (s.setStatus v).mem = s.mem := rfl
@[simp] theorem setStatus_entries (v : Status) : (s.setStatus v).entries = s.entries := rfl
@[simp] theorem setStatus_pending (v : Status) : (s.setStatus v).pending = s.pending := rfl
@[simp] theorem setStatus_responses (v : Status) : (s.setStatus v).responses = s.responses := rfl
@[simp] theorem setStatus_epoch (v : Status) : (s.setStatus v).epoch = s.epoch := rfl

@[simp] theorem setArg_status (v : Word) : (s.setArg v).status = s.status := rfl
@[simp] theorem setArg_arg (v : Word) : (s.setArg v).arg = v := rfl
@[simp] theorem setArg_bufBase (v : Word) : (s.setArg v).bufBase = s.bufBase := rfl
@[simp] theorem setArg_bufEnd (v : Word) : (s.setArg v).bufEnd = s.bufEnd := rfl
@[simp] theorem setArg_entryCount (v : Word) : (s.setArg v).entryCount = s.entryCount := rfl
@[simp] theorem setArg_bw (v : Word) : (s.setArg v).bw = s.bw := rfl
@[simp] theorem setArg_mem (v : Word) : (s.setArg v).mem = s.mem := rfl
@[simp] theorem setArg_entries (v : Word) : (s.setArg v).entries = s.entries := rfl
@[simp] theorem setArg_pending (v : Word) : (s.setArg v).pending = s.pending := rfl
@[simp] theorem setArg_responses (v : Word) : (s.setArg v).responses = s.responses := rfl
@[simp] theorem setArg_epoch (v : Word) : (s.setArg v).epoch = s.epoch := rfl

@[simp] theorem setBufBase_status (v : Word) : (s.setBufBase v).status = s.status := rfl
@[simp] theorem setBufBase_arg (v : Word) : (s.setBufBase v).arg = s.arg := rfl
@[simp] theorem setBufBase_bufBase (v : Word) : (s.setBufBase v).bufBase = v := rfl
@[simp] theorem setBufBase_bufEnd (v : Word) : (s.setBufBase v).bufEnd = s.bufEnd := rfl
@[simp] theorem setBufBase_entryCount (v : Word) : (s.setBufBase v).entryCount = s.entryCount := rfl
@[simp] theorem setBufBase_bw (v : Word) : (s.setBufBase v).bw = s.bw := rfl
@[simp] theorem setBufBase_mem (v : Word) : (s.setBufBase v).mem = s.mem := rfl
@[simp] theorem setBufBase_entries (v : Word) : (s.setBufBase v).entries = s.entries := rfl
@[simp] theorem setBufBase_pending (v : Word) : (s.setBufBase v).pending = s.pending := rfl
@[simp] theorem setBufBase_responses (v : Word) : (s.setBufBase v).responses = s.responses := rfl
@[simp] theorem setBufBase_epoch (v : Word) : (s.setBufBase v).epoch = s.epoch := rfl

@[simp] theorem setBufEnd_status (v : Word) : (s.setBufEnd v).status = s.status := rfl
@[simp] theorem setBufEnd_arg (v : Word) : (s.setBufEnd v).arg = s.arg := rfl
@[simp] theorem setBufEnd_bufBase (v : Word) : (s.setBufEnd v).bufBase = s.bufBase := rfl
@[simp] theorem setBufEnd_bufEnd (v : Word) : (s.setBufEnd v).bufEnd = v := rfl
@[simp] theorem setBufEnd_entryCount (v : Word) : (s.setBufEnd v).entryCount = s.entryCount := rfl
@[simp] theorem setBufEnd_bw (v : Word) : (s.setBufEnd v).bw = s.bw := rfl
@[simp] theorem setBufEnd_mem (v : Word) : (s.setBufEnd v).mem = s.mem := rfl
@[simp] theorem setBufEnd_entries (v : Word) : (s.setBufEnd v).entries = s.entries := rfl
@[simp] theorem setBufEnd_pending (v : Word) : (s.setBufEnd v).pending = s.pending := rfl
@[simp] theorem setBufEnd_responses (v : Word) : (s.setBufEnd v).responses = s.responses := rfl
@[simp] theorem setBufEnd_epoch (v : Word) : (s.setBufEnd v).epoch = s.epoch := rfl

@[simp] theorem setEntryCount_status (v : Word) : (s.setEntryCount v).status = s.status := rfl
@[simp] theorem setEntryCount_arg (v : Word) : (s.setEntryCount v).arg = s.arg := rfl
@[simp] theorem setEntryCount_bufBase (v : Word) : (s.setEntryCount v).bufBase = s.bufBase := rfl
@[simp] theorem setEntryCount_bufEnd (v : Word) : (s.setEntryCount v).bufEnd = s.bufEnd := rfl
@[simp] theorem setEntryCount_entryCount (v : Word) : (s.setEntryCount v).entryCount = v := rfl
@[simp] theorem setEntryCount_bw (v : Word) : (s.setEntryCount v).bw = s.bw := rfl
@[simp] theorem setEntryCount_mem (v : Word) : (s.setEntryCount v).mem = s.mem := rfl
@[simp] theorem setEntryCount_entries (v : Word) : (s.setEntryCount v).entries = s.entries := rfl
@[simp] theorem setEntryCount_pending (v : Word) : (s.setEntryCount v).pending = s.pending := rfl
@[simp] theorem setEntryCount_responses (v : Word) : (s.setEntryCount v).responses = s.responses := rfl
@[simp] theorem setEntryCount_epoch (v : Word) : (s.setEntryCount v).epoch = s.epoch := rfl

@[simp] theorem setBw_status (v : BitWriter) : (s.setBw v).status = s.status := rfl
@[simp] theorem setBw_arg (v : BitWriter) : (s.setBw v).arg = s.arg := rfl
@[simp] theorem setBw_bufBase (v : BitWriter) : (s.setBw v).bufBase = s.bufBase := rfl
@[simp] theorem setBw_bufEnd (v : BitWriter) : (s.setBw v).bufEnd = s.bufEnd := rfl
@[simp] theorem setBw_entryCount (v : BitWriter) : (s.setBw v).entryCount = s.entryCount := rfl
@[simp] theorem setBw_bw (v : BitWriter) : (s.setBw v).bw = v := rfl
@[simp] theorem setBw_mem (v : BitWriter) : (s.setBw v).mem = s.mem := rfl
@[simp] theorem setBw_entries (v : BitWriter) : (s.setBw v).entries = s.entries := rfl
@[simp] theorem setBw_pending (v : BitWriter) : (s.setBw v).pending = s.pending := rfl
@[simp] theorem setBw_responses (v : BitWriter) : (s.setBw v).responses = s.responses := rfl
@[simp] theorem setBw_epoch (v : BitWriter) : (s.setBw v).epoch = s.epoch := rfl

@[simp] theorem setMem_status (v : Memory) : (s.setMem v).status = s.status := rfl
@[simp] theorem setMem_arg (v : Memory) : (s.setMem v).arg = s.arg := rfl
@[simp] theorem setMem_bufBase (v : Memory) : (s.setMem v).bufBase = s.bufBase := rfl
@[simp] theorem setMem_bufEnd (v : Memory) : (s.setMem v).bufEnd = s.bufEnd := rfl
@[simp] theorem setMem_entryCount (v : Memory) : (s.setMem v).entryCount = s.entryCount := rfl
@[simp] theorem setMem_bw (v : Memory) : (s.setMem v).bw = s.bw := rfl
@[simp] theorem setMem_mem (v : Memory) : (s.setMem v).mem = v := rfl
@[simp] theorem setMem_entries (v : Memory) : (s.setMem v).entries = s.entries := rfl
@[simp] theorem setMem_pending (v : Memory) : (s.setMem v).pending = s.pending := rfl
@[simp] theorem setMem_responses (v : Memory) : (s.setMem v).responses = s.responses := rfl
@[simp] theorem setMem_epoch (v : Memory) : (s.setMem v).epoch = s.epoch := rfl

@[simp] theorem setEntries_status (v : List Word) : (s.setEntries v).status = s.status := rfl
@[simp] theorem setEntries_arg (v : List Word) : (s.setEntries v).arg = s.arg := rfl
@[simp] theorem setEntries_bufBase (v : List Word) : (s.setEntries v).bufBase = s.bufBase := rfl
@[simp] theorem setEntries_bufEnd (v : List Word) : (s.setEntries v).bufEnd = s.bufEnd := rfl
@[simp] theorem setEntries_entryCount (v : List Word) : (s.setEntries v).entryCount = s.entryCount := rfl
@[simp] theorem setEntries_bw (v : List Word) : (s.setEntries v).bw = s.bw := rfl
@[simp] theorem setEntries_mem (v : List Word) : (s.setEntries v).mem = s.mem := rfl
@[simp] theorem setEntries_entries (v : List Word) : (s.setEntries v).entries = v := rfl
@[simp] theorem setEntries_pending (v : List Word) : (s.setEntries v).pending = s.pending := rfl
@[simp] theorem setEntries_responses (v : List Word) : (s.setEntries v).responses = s.responses := rfl
@[simp] theorem setEntries_epoch (v : List Word) : (s.setEntries v).epoch = s.epoch := rfl

@[simp] theorem respond_status (v : Response) : (s.respond v).status = s.status := rfl
@[simp] theorem respond_arg (v : Response) : (s.respond v).arg = s.arg := rfl
@[simp] theorem respond_bufBase (v : Response) : (s.respond v).bufBase = s.bufBase := rfl
@[simp] theorem respond_bufEnd (v : Response) : (s.respond v).bufEnd = s.bufEnd := rfl
@[simp] theorem respond_entryCount (v : Response) : (s.respond v).entryCount = s.entryCount := rfl
@[simp] theorem respond_bw (v : Response) : (s.respond v).bw = s.bw := rfl
@[simp] theorem respond_mem (v : Response) : (s.respond v).mem = s.mem := rfl
@[simp] theorem respond_entries (v : Response) : (s.respond v).entries = s.entries := rfl
@[simp] theorem respond_pending (v : Response) : (s.respond v).pending = s.pending := rfl
@[simp] theorem respond_responses (v : Response) : (s.respond v).responses = v :: s.responses := rfl
@[simp] theorem respond_epoch (v : Response) : (s.respond v).epoch = s.epoch := rfl

@[simp] theorem takeAccess_status (v : List HostAccess) : (s.takeAccess v).status = s.status := rfl
@[simp] theorem takeAccess_arg (v : List HostAccess) : (s.takeAccess v).arg = s.arg := rfl
@[simp] theorem takeAccess_bufBase (v : List HostAccess) : (s.takeAccess v).bufBase = s.bufBase := rfl
@[simp] theorem takeAccess_bufEnd (v : List HostAccess) : (s.takeAccess v).bufEnd = s.bufEnd := rfl
@[simp] theorem takeAccess_entryCount (v : List HostAccess) : (s.takeAccess v).entryCount = s.entryCount := rfl
@[simp] theorem takeAccess_bw (v : List HostAccess) : (s.takeAccess v).bw = s.bw := rfl
@[simp] theorem takeAccess_mem (v : List HostAccess) : (s.takeAccess v).mem = s.mem := rfl
@[simp] theorem takeAccess_entries (v : List HostAccess) : (s.takeAccess v).entries = s.entries := rfl
@[simp] theorem takeAccess_pending (v : List HostAccess) : (s.takeAccess v).pending = v := rfl
@[simp] theorem takeAccess_responses (v : List HostAccess) : (s.takeAccess v).responses = s.responses := rfl
@[simp] theorem takeAccess_epoch (v : List HostAccess) : (s.takeAccess v).epoch = s.epoch + 1 := rfl

@[simp] theorem putAccess_status (v : HostAccess) : (s.putAccess v).status = s.status := rfl
@[simp] theorem putAccess_arg (v : HostAccess) : (s.putAccess v).arg = s.arg := rfl
@[simp] theorem putAccess_bufBase (v : HostAccess) : (s.putAccess v).bufBase = s.bufBase := rfl
@[simp] theorem putAccess_bufEnd (v : HostAccess) : (s.putAccess v).bufEnd = s.bufEnd := rfl
@[simp] theorem putAccess_entryCount (v : HostAccess) : (s.putAccess v).entryCount = s.entryCount := rfl
@[simp] theorem putAccess_bw (v : HostAccess) : (s.putAccess v).bw = s.bw := rfl
@[simp] theorem putAccess_mem (v : HostAccess) : (s.putAccess v).mem = s.mem := rfl
@[simp] theorem putAccess_entries (v : HostAccess) : (s.putAccess v).entries = s.entries := rfl
@[simp] theorem putAccess_pending (v : HostAccess) : (s.putAccess v).pending = v :: s.pending := rfl
@[simp] theorem putAccess_responses (v : HostAccess) : (s.putAccess v).responses = s.responses := rfl
@[simp] theorem putAccess_epoch (v : HostAccess) : (s.putAccess v).epoch = s.epoch := rfl

theorem setStatus_self : s.setStatus s.status = s := rfl
theorem setMem_self : s.setMem s.mem = s := rfl
theorem setBw_self : s.setBw s.bw = s := rfl
theorem setStatus_setStatus (v w : Status) : (s.setStatus v).setStatus w = s.setStatus w := rfl
theorem setBw_setMem (b : BitWriter) (m : Memory) : (s.setBw b).setMem m = (s.setMem m).setBw b := rfl
theorem setBw_setBw (b c : BitWriter) : (s.setBw b).setBw c = s.setBw c := rfl
theorem setMem_setMem (m m' : Memory) : (s.setMem m).setMem m' = s.setMem m' := rfl
theorem setBw_setStatus (b : BitWriter) (v : Status) : (s.setBw b).setStatus v = (s.setStatus v).setBw b := rfl
theorem setMem_setStatus (m : Memory) (v : Status) : (s.setMem m).setStatus v = (s.setStatus v).setMem m := rfl

end Sys2Proof.Machine
end

