-- ==== Sys2Proof/Laws/Memory.lean ====
section
/-! SUPPORT. Output memory: reading after writing, and the canonical form is kept. -/

namespace Sys2Proof.Machine

@[simp] theorem readByte_nil (x : Nat) : readByte [] x = none := rfl

theorem readByte_cons (a : Nat) (b : Byte) (m : Memory) (x : Nat) :
    readByte ((a, b) :: m) x = if a = x then some b else readByte m x := rfl

/-- What a byte write does to every address (20_memory.md R53). -/
theorem readByte_writeByte (m : Memory) (x : Nat) (v : Byte) (y : Nat) :
    readByte (writeByte m x v) y = if x = y then some v else readByte m y := by
  induction m with
  | nil => simp [writeByte, readByte]
  | cons c rest ih =>
    obtain ⟨a, b⟩ := c
    unfold writeByte
    split
    · simp [readByte]
    · split
      · next h => subst h; simp only [readByte]; split <;> rfl
      · simp only [readByte, ih]; split <;> split <;> first | rfl | omega

theorem mem_writeByte {m : Memory} {x : Nat} {v : Byte} {c : Host.Cell} (h : c ∈ writeByte m x v) :
    c = (x, v) ∨ c ∈ m := by
  induction m with
  | nil => simpa [writeByte] using h
  | cons d rest ih =>
    obtain ⟨a, b⟩ := d
    unfold writeByte at h
    split at h
    · simpa using h
    · split at h
      · simp only [List.mem_cons] at h ⊢; tauto
      · simp only [List.mem_cons] at h ⊢
        rcases h with h | h
        · exact .inr (.inl h)
        · exact (ih h).imp id .inr

/-- A byte write inside the address space keeps the canonical form. -/
theorem writeByte_wf {m : Memory} (hm : Memory.wf m) {x : Nat} (hx : x < addressSpaceSize) (v : Byte) :
    Memory.wf (writeByte m x v) := by
  obtain ⟨hs, hb⟩ := hm
  refine ⟨?_, fun c hc => ?_⟩
  · clear hb
    induction m with
    | nil => simp [writeByte]
    | cons d rest ih =>
      obtain ⟨a, b⟩ := d
      obtain ⟨hd, hr⟩ := List.pairwise_cons.mp hs
      unfold writeByte
      split
      · next hlt =>
        refine List.pairwise_cons.mpr ⟨fun c hc => ?_, hs⟩
        rcases List.mem_cons.mp hc with rfl | hc
        · exact hlt
        · exact lt_trans hlt (hd c hc)
      · split
        · next h => subst h; exact List.pairwise_cons.mpr ⟨hd, hr⟩
        · next h1 h2 =>
          refine List.pairwise_cons.mpr ⟨fun c hc => ?_, ih hr⟩
          rcases mem_writeByte hc with rfl | hc
          · show a < x; omega
          · exact hd c hc
  · rcases mem_writeByte hc with rfl | hc
    · exact hx
    · exact hb c hc

/-- What a 4-byte write does to every address (20_memory.md R53). -/
theorem readByte_memWrite4 (m : Memory) (addr : Nat) (v : Word) (y : Nat) :
    readByte (memWrite4 m addr v) y =
      if addr ≤ y ∧ y < addr + 4 then some (byteOf v (y - addr)) else readByte m y := by
  simp only [memWrite4, readByte_writeByte]
  by_cases h : addr ≤ y ∧ y < addr + 4
  · obtain ⟨h1, h2⟩ := h
    have : y = addr ∨ y = addr + 1 ∨ y = addr + 2 ∨ y = addr + 3 := by omega
    rcases this with rfl | rfl | rfl | rfl <;> simp
  · rw [if_neg h, if_neg (by omega), if_neg (by omega), if_neg (by omega), if_neg (by omega)]

theorem memWrite4_wf {m : Memory} (hm : Memory.wf m) {addr : Nat} (h : addr + 4 ≤ addressSpaceSize) (v : Word) :
    Memory.wf (memWrite4 m addr v) := by
  unfold memWrite4
  exact writeByte_wf (writeByte_wf (writeByte_wf (writeByte_wf hm (by omega) _) (by omega) _) (by omega) _) (by omega) _

@[simp] theorem commitWrites_nil (m : Memory) : commitWrites m [] = m := rfl

@[simp] theorem commitWrites_cons (m : Memory) (c a : Word) (ws : List (Word × Word)) :
    commitWrites m ((c, a) :: ws) = commitWrites (memWrite4 m c.toNat a) ws := rfl

/-- Commits leave every byte outside the written words alone. -/
theorem readByte_commitWrites_of_outside {ws : List (Word × Word)} {y : Nat}
    (h : ∀ p ∈ ws, ¬ (p.1.toNat ≤ y ∧ y < p.1.toNat + 4)) (m : Memory) :
    readByte (commitWrites m ws) y = readByte m y := by
  induction ws generalizing m with
  | nil => rfl
  | cons p ws ih =>
    obtain ⟨c, a⟩ := p
    rw [commitWrites_cons, ih (fun p hp => h p (List.mem_cons_of_mem _ hp)), readByte_memWrite4,
      if_neg (h (c, a) List.mem_cons_self)]

theorem commitWrites_wf {ws : List (Word × Word)} (h : ∀ p ∈ ws, p.1.toNat + 4 ≤ addressSpaceSize) {m : Memory}
    (hm : Memory.wf m) : Memory.wf (commitWrites m ws) := by
  induction ws generalizing m with
  | nil => exact hm
  | cons p ws ih =>
    obtain ⟨c, a⟩ := p
    rw [commitWrites_cons]
    exact ih (fun p hp => h p (List.mem_cons_of_mem _ hp)) (memWrite4_wf hm (h (c, a) List.mem_cons_self) a)

/-- The bits of the four bytes of a word (20_memory.md R52). -/
theorem byteOf_getLsbD (v : Word) (j q : Nat) (hq : q < 8) : (byteOf v j).getLsbD q = v.getLsbD (8 * j + q) := by
  simp [byteOf, hq]

/-! ## The entry source -/

/-- What an entry is after one entry has been written: the new word, or what it was; past both, a free value. -/
theorem entryWord_setEntries_entriesWith (s : State) (index : Nat) (data : Word) {i : Nat}
    (hi : i < max s.entries.length (index + 1)) :
    entryWord (s.setEntries (entriesWith s index data)) i = if i = index then data else entryWord s i := by
  rw [entryWord, setEntries_entries, entriesWith, List.getElem?_map, List.getElem?_range hi, Option.map_some]

end Sys2Proof.Machine
end

