-- ==== Sys2Proof/Laws/BitWriter.lean ====
section
/-! SUPPORT. The BitWriter primitives field by field (40_bitwriter.md R103 to R105). -/

namespace Sys2Proof.Machine

@[simp] theorem bwAdd_cursor (b : BitWriter) (v w : Nat) : (bwAdd b v w).cursor = b.cursor := rfl

theorem bwAdd_acc (b : BitWriter) (v w : Nat) :
    (bwAdd b v w).acc = b.acc ||| BitVec.ofNat 32 (v <<< b.fill.toNat) := rfl

theorem bwAdd_fill {b : BitWriter} {w : Nat} (h : AddFits b w) (v : Nat) :
    (bwAdd b v w).fill.toNat = b.fill.toNat + w := by
  show (BitVec.ofNat 6 (b.fill.toNat + w)).toNat = _
  rw [BitVec.toNat_ofNat, Nat.mod_eq_of_lt]
  have : b.fill.toNat + w ≤ 32 := h
  omega

/-- Bit `q` of ACC after an add (40_bitwriter.md R104). -/
theorem bwAdd_acc_bit (b : BitWriter) (v w q : Nat) :
    (bwAdd b v w).acc.getLsbD q =
      (b.acc.getLsbD q || (decide (q < 32) && decide (b.fill.toNat ≤ q) && v.testBit (q - b.fill.toNat))) := by
  rw [bwAdd_acc, BitVec.getLsbD_or, BitVec.getLsbD_ofNat, Nat.testBit_shiftLeft, Bool.and_assoc]

theorem bwAdd_strayAtMost {b : BitWriter} {v w : Nat} (h : AddFits b w) (hb : b.StrayAtMost)
    (hv : v < 2 ^ w ∨ (v ≤ 2 ^ w ∧ 0 < w)) : (bwAdd b v w).StrayAtMost := by
  unfold BitWriter.StrayAtMost
  rw [bwAdd_fill h, bwAdd_acc, BitVec.toNat_or, BitVec.toNat_ofNat]
  have h1 : b.acc.toNat < 2 ^ (b.fill.toNat + w + 1) :=
    lt_of_lt_of_le hb (Nat.pow_le_pow_right (by norm_num) (by clear hb; omega))
  have hv' : v < 2 ^ (w + 1) := by have := Nat.two_pow_pos w; rw [pow_succ]; omega
  have h2 : v <<< b.fill.toNat < 2 ^ (b.fill.toNat + w + 1) := by
    rw [Nat.shiftLeft_eq, show b.fill.toNat + w + 1 = (w + 1) + b.fill.toNat by omega, pow_add 2 (w + 1)]
    exact Nat.mul_lt_mul_of_pos_right hv' (by positivity)
  exact Nat.or_lt_two_pow h1 (lt_of_le_of_lt (Nat.mod_le _ _) h2)

theorem bwAdd_clean {b : BitWriter} {v w : Nat} (h : AddFits b w) (hv : v < 2 ^ w)
    (hb : b.Clean ∨ (b.StrayAtMost ∧ 0 < w)) : (bwAdd b v w).Clean := by
  unfold BitWriter.Clean
  rw [bwAdd_fill h, bwAdd_acc, BitVec.toNat_or, BitVec.toNat_ofNat]
  have h1 : b.acc.toNat < 2 ^ (b.fill.toNat + w) := by
    rcases hb with hb | ⟨hb, hw⟩
    · exact lt_of_lt_of_le hb (Nat.pow_le_pow_right (by norm_num) (Nat.le_add_right _ _))
    · exact lt_of_lt_of_le hb (Nat.pow_le_pow_right (by norm_num) (by clear hb; omega))
  have h2 : v <<< b.fill.toNat < 2 ^ (b.fill.toNat + w) := by
    rw [Nat.shiftLeft_eq, show b.fill.toNat + w = w + b.fill.toNat by omega, pow_add 2 w]
    exact Nat.mul_lt_mul_of_pos_right hv (by positivity)
  exact Nat.or_lt_two_pow h1 (lt_of_le_of_lt (Nat.mod_le _ _) h2)

theorem flushAdvance_eq (b : BitWriter) : flushAdvance b = b.fill.toNat / 8 := by
  simp [flushAdvance, Nat.shiftRight_eq_div_pow]

theorem flushAdvance_le {b : BitWriter} (h : b.fill.toNat ≤ 32) : flushAdvance b ≤ 4 := by
  rw [flushAdvance_eq]; omega

theorem bwFlush_fill (b : BitWriter) : (bwFlush b).fill.toNat = b.fill.toNat % 8 := by
  show (b.fill &&& 7).toNat = _
  rw [BitVec.toNat_and, show (7 : BitVec 6).toNat = 2 ^ 3 - 1 by decide, Nat.and_two_pow_sub_one_eq_mod]

theorem bwFlush_acc_bit (b : BitWriter) (q : Nat) :
    (bwFlush b).acc.getLsbD q = b.acc.getLsbD (8 * (b.fill.toNat / 8) + q) := by
  show (if flushAdvance b = 4 then (0 : Word) else b.acc >>> (8 * flushAdvance b)).getLsbD q = _
  rw [flushAdvance_eq]
  split
  · next h4 => rw [h4, BitVec.getLsbD_of_ge b.acc _ (by omega)]; simp
  · rw [BitVec.getLsbD_ushiftRight]

theorem bwFlush_acc_toNat (b : BitWriter) :
    (bwFlush b).acc.toNat = b.acc.toNat / 2 ^ (8 * (b.fill.toNat / 8)) := by
  show (if flushAdvance b = 4 then (0 : Word) else b.acc >>> (8 * flushAdvance b)).toNat = _
  rw [flushAdvance_eq]
  split
  · next h4 => rw [h4]; exact (Nat.div_eq_of_lt b.acc.isLt).symm
  · rw [BitVec.toNat_ushiftRight, Nat.shiftRight_eq_div_pow]

theorem bwFlush_strayAtMost {b : BitWriter} (hb : b.StrayAtMost) :
    (bwFlush b).StrayAtMost := by
  unfold BitWriter.StrayAtMost
  rw [bwFlush_acc_toNat, bwFlush_fill, Nat.div_lt_iff_lt_mul (by positivity), ← pow_add]
  rwa [show b.fill.toNat % 8 + 1 + 8 * (b.fill.toNat / 8) = b.fill.toNat + 1 by omega]

theorem bwFlush_clean {b : BitWriter} (hb : b.Clean) : (bwFlush b).Clean := by
  unfold BitWriter.Clean
  rw [bwFlush_acc_toNat, bwFlush_fill, Nat.div_lt_iff_lt_mul (by positivity), ← pow_add]
  rwa [show b.fill.toNat % 8 + 8 * (b.fill.toNat / 8) = b.fill.toNat by omega]

/-- CURSOR never wraps (20_memory.md R57). -/
theorem bwFlush_cursor {b : BitWriter} {bufBase bufEnd : Word} (hf : b.fill.toNat ≤ 32)
    (h : FlushFits bufBase bufEnd b.cursor) :
    (bwFlush b).cursor.toNat = b.cursor.toNat + b.fill.toNat / 8 := by
  show (b.cursor + BitVec.ofNat 32 (flushAdvance b)).toNat = _
  have := bufEnd.isLt
  have := h.2
  rw [flushAdvance_eq, BitVec.toNat_add, BitVec.toNat_ofNat, Nat.mod_eq_of_lt (a := _ / 8) (by omega),
    Nat.mod_eq_of_lt (by omega)]

theorem bwFlush_idempotent (b : BitWriter) : bwFlush (bwFlush b) = bwFlush b := by
  have hf : (bwFlush b).fill.toNat / 8 = 0 := by rw [bwFlush_fill]; omega
  have h0 : flushAdvance (bwFlush b) = 0 := by rw [flushAdvance_eq, hf]
  have hfill : (bwFlush b).fill &&& 7 = (bwFlush b).fill := by
    show b.fill &&& 7 &&& 7 = b.fill &&& 7
    rw [BitVec.and_assoc, BitVec.and_self]
  rw [bwFlush.eq_def (bwFlush b), h0, hfill]
  simp

/-! ## The trial run -/

theorem runOps_nil (policy : OverwidePolicy) (lo hi : Word) (b : BitWriter) :
    runOps policy lo hi [] b = .ok (b, []) := rfl

theorem runOps_add_ok {policy : OverwidePolicy} {lo hi : Word} {v w : Nat} {ops : List BwOp} {b : BitWriter}
    {r : BitWriter × List (Word × Word)} (h : runOps policy lo hi (.add v w :: ops) b = .ok r) :
    AddFits b w ∧ runOps policy lo hi ops (bwAdd b (applyPolicy policy v w) w) = .ok r := by
  rw [runOps] at h
  split at h
  · simp at h
  · next hf => exact ⟨not_not.mp hf, h⟩

theorem runOps_flush_ok {policy : OverwidePolicy} {lo hi : Word} {ops : List BwOp} {b : BitWriter}
    {r : BitWriter × List (Word × Word)} (h : runOps policy lo hi (.flush :: ops) b = .ok r) :
    FlushFits lo hi b.cursor ∧
      ∃ ws, runOps policy lo hi ops (bwFlush b) = .ok (r.1, ws) ∧ r.2 = (b.cursor, b.acc) :: ws := by
  rw [runOps] at h
  split at h
  · simp at h
  · next hf =>
    refine ⟨not_not.mp hf, ?_⟩
    split at h
    · simp at h
    · next b' ws heq => cases h; exact ⟨ws, heq, rfl⟩

/-- Every write of a trial run lies in the buffer (20_memory.md R56). -/
theorem runOps_writes_fit {policy : OverwidePolicy} {lo hi : Word} {ops : List BwOp} {b : BitWriter}
    {r : BitWriter × List (Word × Word)} (h : runOps policy lo hi ops b = .ok r) :
    ∀ p ∈ r.2, FlushFits lo hi p.1 := by
  induction ops generalizing b r with
  | nil => cases h; simp
  | cons op ops ih =>
    cases op with
    | add v w => exact ih (runOps_add_ok h).2
    | flush =>
      obtain ⟨hf, ws, hr, h2⟩ := runOps_flush_ok h
      rw [h2]
      intro p hp
      rcases List.mem_cons.mp hp with rfl | hp
      · exact hf
      · exact ih hr p hp

/-- A trial run keeps FILL at most 32, moves CURSOR forward only, and writes at and after the first CURSOR
(10_state.md R28, R31). -/
theorem runOps_cursor {policy : OverwidePolicy} {lo hi : Word} {ops : List BwOp} {b : BitWriter}
    {r : BitWriter × List (Word × Word)} (hb : b.fill.toNat ≤ 32) (h : runOps policy lo hi ops b = .ok r) :
    r.1.fill.toNat ≤ 32 ∧ b.cursor.toNat ≤ r.1.cursor.toNat ∧ ∀ p ∈ r.2, b.cursor.toNat ≤ p.1.toNat := by
  induction ops generalizing b r with
  | nil => cases h; simp [hb]
  | cons op ops ih =>
    cases op with
    | add v w =>
      obtain ⟨hf, hr⟩ := runOps_add_ok h
      have := ih (by rw [bwAdd_fill hf]; exact hf) hr
      simpa using this
    | flush =>
      obtain ⟨hf, ws, hr, h2⟩ := runOps_flush_ok h
      have hc := bwFlush_cursor hb hf
      obtain ⟨h1, h3, h4⟩ := ih (by rw [bwFlush_fill]; omega) hr
      refine ⟨h1, by simp only at h3; omega, ?_⟩
      rw [h2]
      intro p hp
      rcases List.mem_cons.mp hp with rfl | hp
      · exact le_refl _
      · have := h4 p hp; omega

end Sys2Proof.Machine
end

