-- ==== Sys2Proof/Laws/NCount.lean ====
section
/-! SUPPORT. ENCODE's scan, its fields and its plan (41_ncount_encoder.md R132 to R143). -/

namespace Sys2Proof.Machine

/-! ## Coverage and the scan -/

@[simp] theorem coverage_zero (entry : Nat → Int) : coverage entry 0 = 0 := rfl

theorem coverage_succ (entry : Nat → Int) (n : Nat) :
    coverage entry (n + 1) = coverage entry n + (entry n).natAbs := rfl

theorem coverage_mono (entry : Nat → Int) {i j : Nat} (h : i ≤ j) : coverage entry i ≤ coverage entry j := by
  induction h with
  | refl => exact le_refl _
  | step _ ih => exact le_trans ih (Nat.le_add_right _ _)

theorem natAbs_pos_of_valid {c : Int} (h : ValidCount c) : 1 ≤ c.natAbs := by
  rcases h with rfl | h <;> omega

theorem coverage_lt {entry : Nat → Int} {i j : Nat} (hij : i < j) (hv : ValidCount (entry i)) :
    coverage entry i < coverage entry j := by
  have h1 := coverage_mono entry (Nat.succ_le_of_lt hij)
  have h2 := natAbs_pos_of_valid hv
  rw [coverage_succ] at h1
  omega

theorem validCount_iff (c : Int) : ValidCount c ↔ ¬ (c = 0 ∨ c < -1) := by
  constructor
  · rintro (rfl | h) <;> omega
  · intro h
    by_cases hc : 0 < c
    · exact .inr hc
    · exact .inl (by omega)

/-- One turn of the scan's loop past a valid entry that does not overshoot (41_ncount_encoder.md R132). -/
theorem scanFrom_step {entry : Nat → Int} {limit fuel i deficit : Nat} {m : Int} (hd : 0 < deficit) (hi : i < limit)
    (hv : ValidCount (entry i)) (hle : (entry i).natAbs ≤ deficit) :
    scanFrom entry limit (fuel + 1) i deficit m =
      scanFrom entry limit fuel (i + 1) (deficit - (entry i).natAbs)
        (if i = 0 then entry i else max m (entry i)) := by
  rw [scanFrom, if_neg (by omega), if_neg (by omega), if_neg ((validCount_iff _).mp hv), if_neg (by omega)]

/-- What a scan that ends well has seen, from any point of its loop (41_ncount_encoder.md R132). -/
theorem scanFrom_ok {entry : Nat → Int} {limit : Nat} {fuel i deficit : Nat} {m : Int} {n : Nat} {m' : Int}
    (hf : deficit ≤ fuel) (h : scanFrom entry limit fuel i deficit m = .ok (n, m')) :
    i ≤ n ∧ (n ≤ limit ∨ n = i) ∧ (∀ j, i ≤ j → j < n → ValidCount (entry j)) ∧
      coverage entry n = coverage entry i + deficit ∧
      (∀ j, i ≤ j → j < n → entry j ≤ m') ∧ (0 < i → m ≤ m') ∧
      ((∃ j, i ≤ j ∧ j < n ∧ entry j = m') ∨ (m' = m ∧ (0 < i ∨ n = i))) := by
  induction fuel generalizing i deficit m with
  | zero =>
    cases h
    have : deficit = 0 := by omega
    subst this
    exact ⟨le_refl _, .inr rfl, by intro j; omega, by simp, by intro j; omega, fun _ => le_refl _,
      .inr ⟨rfl, .inr rfl⟩⟩
  | succ fuel ih =>
    rw [scanFrom] at h
    split at h
    · next h0 =>
      cases h
      subst h0
      exact ⟨le_refl _, .inr rfl, by intro j; omega, by simp, by intro j; omega, fun _ => le_refl _,
        .inr ⟨rfl, .inr rfl⟩⟩
    · split at h
      · simp at h
      · split at h
        · simp at h
        · next hd hl hc =>
          have hv := (validCount_iff _).mpr hc
          split at h
          · simp at h
          · next ho =>
            have hp := natAbs_pos_of_valid hv
            obtain ⟨h1, h2, h3, h4, h5, h6, h7⟩ := ih (by omega) h
            clear ih
            have hin : i ≤ n := Nat.le_of_succ_le h1
            have hnl : n ≤ limit := by clear h3 h5 h6 h7; omega
            refine ⟨hin, .inl hnl, ?_, ?_, ?_, ?_, ?_⟩
            · intro j hj hjn
              rcases Nat.eq_or_lt_of_le hj with rfl | hj
              · exact hv
              · exact h3 j hj hjn
            · rw [h4, coverage_succ, Nat.add_assoc, Nat.add_sub_cancel' (Nat.le_of_not_lt ho)]
            · intro j hj hjn
              rcases Nat.eq_or_lt_of_le hj with rfl | hj
              · have := h6 (Nat.succ_pos _); clear h7; split at this <;> omega
              · exact h5 j hj hjn
            · intro hi
              have := h6 (Nat.succ_pos _)
              rw [if_neg (Nat.ne_of_gt hi)] at this
              exact le_trans (le_max_left _ _) this
            · rcases h7 with ⟨j, hj, hjn, he⟩ | ⟨he, _⟩
              · exact .inl ⟨j, Nat.le_of_succ_le hj, hjn, he⟩
              · by_cases hm : m' = entry i
                · exact .inl ⟨i, le_refl _, by omega, hm.symm⟩
                · split at he
                  · exact absurd he hm
                  · exact .inr ⟨by omega, .inl (by omega)⟩

/-- A scan that ends well has found a table and its greatest count (41_ncount_encoder.md R132). -/
theorem scan_ok {entry : Nat → Int} {limit tl n : Nat} {m : Int} (h : scan entry limit tl = .ok (n, m)) :
    IsTable entry limit tl n ∧ IsMaxCount entry n m := by
  obtain ⟨_, h2, h3, h4, h5, _, h7⟩ := scanFrom_ok (le_refl _) h
  have hpos := Nat.two_pow_pos tl
  have hn : n ≠ 0 := by rintro rfl; rw [coverage_zero] at h4; omega
  refine ⟨⟨by omega, fun i hi => h3 i (Nat.zero_le _) hi, by simpa using h4⟩,
    ⟨?_, fun i hi => h5 i (Nat.zero_le _) hi⟩⟩
  rcases h7 with ⟨j, _, hj, he⟩ | ⟨_, h | h⟩
  · exact ⟨j, hj, he⟩
  · omega
  · exact absurd h hn

/-! ## A table's deficits -/

/-- The deficit at entry `i` is at least `|c_i| >= 1` (41_ncount_encoder.md R138). -/
theorem IsTable.deficit {entry : Nat → Int} {limit tl n : Nat} (h : IsTable entry limit tl n) {i : Nat} (hi : i < n) :
    1 ≤ (entry i).natAbs ∧ coverage entry i + (entry i).natAbs ≤ 2 ^ tl := by
  refine ⟨natAbs_pos_of_valid (h.valid i hi), ?_⟩
  rw [← coverage_succ, ← h.total]
  exact coverage_mono entry hi

/-- The deficit is used up exactly by the last entry. -/
theorem IsTable.last_iff {entry : Nat → Int} {limit tl n : Nat} (h : IsTable entry limit tl n) {i : Nat} (hi : i < n) :
    coverage entry i + (entry i).natAbs = 2 ^ tl ↔ i + 1 = n := by
  constructor
  · intro he
    by_contra hne
    have hlt : i + 1 < n := by omega
    have := coverage_lt hlt (h.valid _ hlt)
    rw [h.total, coverage_succ] at this
    omega
  · rintro rfl
    rw [← coverage_succ, h.total]

/-- A table has at most `2^tl` entries (41_ncount_encoder.md R145). -/
theorem IsTable.length_le {entry : Nat → Int} {limit tl n : Nat} (h : IsTable entry limit tl n) : n ≤ 2 ^ tl := by
  have key : ∀ k ≤ n, k ≤ coverage entry k := by
    intro k
    induction k with
    | zero => simp
    | succ k ih =>
      intro hk
      have := ih (by omega)
      have := natAbs_pos_of_valid (h.valid k hk)
      rw [coverage_succ]; omega
  exact h.total ▸ key n (le_refl _)

theorem IsTable.pos {entry : Nat → Int} {limit tl n : Nat} (h : IsTable entry limit tl n) : 0 < n := by
  rcases Nat.eq_zero_or_pos n with rfl | hn
  · have := h.total; have := Nat.two_pow_pos tl; rw [coverage_zero] at *; omega
  · exact hn

theorem IsTable.max_le {entry : Nat → Int} {limit tl n : Nat} (h : IsTable entry limit tl n) {i : Nat} (hi : i < n) :
    entry i ≤ 2 ^ tl := by
  have := (h.deficit hi).2
  have : (entry i).natAbs ≤ 2 ^ tl := by omega
  have h2 : ((2 ^ tl : Nat) : Int) = 2 ^ tl := by push_cast; rfl
  omega

/-! ## Fields -/

theorem bitlength_le {n : Nat} (h : 0 < n) : 2 ^ bitlength n ≤ n := Nat.log2_self_le (by omega)

theorem lt_bitlength (n : Nat) : n < 2 ^ (bitlength n + 1) := Nat.lt_log2_self

theorem bitlength_lt {n k : Nat} (hn : 0 < n) (h : n < 2 ^ k) : bitlength n < k := by
  by_contra hk
  have h1 := bitlength_le hn
  have h2 := Nat.pow_le_pow_right (n := 2) (by norm_num) (Nat.le_of_not_lt hk)
  omega

/-- On the truncated path: the width is `k` or `k+1`, at least 1, and the value fits unless `c = deficit`, when it is
`2^width` (41_ncount_encoder.md R136, R141, R142). -/
theorem fieldCode_truncated {c : Int} {deficit k0 n0 : Nat} (hd : 1 ≤ deficit) (hv : ValidCount c)
    (hc : c.natAbs ≤ deficit) (ht : deficit + 1 < n0) :
    1 ≤ (fieldCode c deficit k0 n0).2 ∧ (fieldCode c deficit k0 n0).2 ≤ bitlength (deficit + 1) + 1 ∧
      (fieldCode c deficit k0 n0).1 ≤ 2 ^ (fieldCode c deficit k0 n0).2 ∧
      ((fieldCode c deficit k0 n0).1 = 2 ^ (fieldCode c deficit k0 n0).2 ↔ c = deficit) := by
  have h1 : 2 ^ bitlength (deficit + 1) ≤ deficit + 1 := bitlength_le (Nat.succ_pos deficit)
  have h2 := lt_bitlength (deficit + 1)
  have hk : 1 ≤ bitlength (deficit + 1) := by
    by_contra h
    have : bitlength (deficit + 1) = 0 := by omega
    rw [this] at h2; omega
  have hx : (c + 1).toNat ≤ deficit + 1 := by rcases hv with rfl | hv <;> omega
  have hxe : (c + 1).toNat = deficit + 1 ↔ c = deficit := by rcases hv with rfl | hv <;> omega
  rw [pow_succ] at h2
  simp only [fieldCode, if_pos ht]
  split
  · refine ⟨by omega, le_refl _, ?_, ?_⟩ <;> simp only [pow_succ] at * <;> omega
  · refine ⟨hk, Nat.le_succ _, ?_, ?_⟩ <;> simp only [pow_succ] at * <;> omega

theorem fieldCode_fixed {c : Int} {deficit k0 n0 : Nat} (ht : ¬ deficit + 1 < n0) :
    fieldCode c deficit k0 n0 = ((c + 1).toNat, k0) := by
  simp only [fieldCode, if_neg ht]

/-- The truncated path's widths do not exceed `k0` (41_ncount_encoder.md R142). -/
theorem bitlength_lt_fixedWidth {deficit k0 : Nat} (ht : deficit + 1 < threshold k0) :
    bitlength (deficit + 1) < k0 := by
  apply bitlength_lt (Nat.succ_pos _)
  unfold threshold at ht
  omega

/-- In overflow mode every field is truncated (41_ncount_encoder.md R143). -/
theorem overflow_truncated {tl deficit : Nat} (htl : 2 ≤ tl) (hd : deficit ≤ 2 ^ tl) :
    deficit + 1 < threshold (fixedWidth tl .overflow) := by
  have h4 : 2 ^ 2 ≤ 2 ^ tl := Nat.pow_le_pow_right (by norm_num) htl
  simp only [threshold, fixedWidth, pow_succ 2 tl]
  omega

theorem fixedWidth_bounds {tl : Nat} (h : 5 ≤ tl) (mode : Mode) :
    3 ≤ fixedWidth tl mode ∧ fixedWidth tl mode ≤ tl + 1 := by
  cases mode <;> simp only [fixedWidth] <;> omega

/-- On the fixed path of the selected mode, `maxCnt + 1` fits in `k0` bits (41_ncount_encoder.md R142). -/
theorem max_fits_fixedWidth {tl m : Nat} (hm : selectMode tl m ≠ .overflow) :
    m + 1 < 2 ^ fixedWidth tl (selectMode tl m) := by
  have h := lt_bitlength (m + 1)
  unfold selectMode at hm ⊢
  split
  · next he => simpa [fixedWidth, he] using h
  · split
    · next he => simp [*] at hm
    · next h1 h2 =>
      refine lt_of_lt_of_le h (Nat.pow_le_pow_right (by norm_num) ?_)
      simp only [fixedWidth]; omega

/-- The bounds of every field of a table, and the one case in which the value does not fit
(41_ncount_encoder.md R141, R142). -/
theorem entryField_bounds {entry : Nat → Int} {limit tl n : Nat} {m : Nat} (h : IsTable entry limit tl n)
    (hm : IsMaxCount entry n m) (htl : 5 ≤ tl) {i : Nat} (hi : i < n) :
    1 ≤ (entryField entry tl (selectMode tl m) i).2 ∧
      (entryField entry tl (selectMode tl m) i).2 ≤ fixedWidth tl (selectMode tl m) ∧
      (entryField entry tl (selectMode tl m) i).1 ≤ 2 ^ (entryField entry tl (selectMode tl m) i).2 ∧
      ((entryField entry tl (selectMode tl m) i).1 = 2 ^ (entryField entry tl (selectMode tl m) i).2 ↔
        i + 1 = n ∧ 0 < entry i ∧ TakesTruncated entry tl (selectMode tl m) i) := by
  obtain ⟨hp, hle⟩ := h.deficit hi
  have hv := h.valid i hi
  have hlast := h.last_iff hi
  obtain ⟨hk3, _⟩ := fixedWidth_bounds htl (selectMode tl m)
  by_cases ht : TakesTruncated entry tl (selectMode tl m) i
  · obtain ⟨h1, h2, h3, h4⟩ := fieldCode_truncated (k0 := fixedWidth tl (selectMode tl m)) (by omega) hv (by omega) ht
    have h5 := bitlength_lt_fixedWidth ht
    refine ⟨h1, le_trans h2 h5, h3, ?_⟩
    rw [entryField, h4]
    constructor
    · intro he
      refine ⟨hlast.mp (by omega), by omega, ht⟩
    · rintro ⟨he, h0, _⟩
      have := hlast.mpr he
      omega
  · have hmode : selectMode tl m ≠ .overflow := by
      intro he
      apply ht
      rw [TakesTruncated, he]
      exact overflow_truncated (by omega) (Nat.sub_le _ _)
    have hx := max_fits_fixedWidth hmode
    have hg := hm.greatest i hi
    rw [entryField, fieldCode_fixed ht]
    have hlt : (entry i + 1).toNat < 2 ^ fixedWidth tl (selectMode tl m) := by omega
    exact ⟨by simp only; omega, le_refl _, le_of_lt hlt, by simp only; constructor <;> intro hh <;> omega⟩

/-! ## The plan -/

/-- The operations of entry `i`. -/
def entryOps (entry : Nat → Int) (tl : Nat) (mode : Mode) (i : Nat) : List BwOp :=
  [.add (entryField entry tl mode i).1 (entryField entry tl mode i).2, .flush]

theorem planFrom_eq (entry : Nat → Int) (tl : Nat) (mode : Mode) (remaining i : Nat) :
    planFrom entry (fixedWidth tl mode) (threshold (fixedWidth tl mode)) remaining i (2 ^ tl - coverage entry i) =
      (List.range' i remaining).flatMap (entryOps entry tl mode) := by
  induction remaining generalizing i with
  | zero => rfl
  | succ r ih =>
    rw [planFrom, Nat.sub_sub, ← coverage_succ, ih (i + 1), List.range'_succ, List.flatMap_cons]
    rfl

/-- The plan: the two header fields, then each entry's field and flush (41_ncount_encoder.md R137). -/
theorem plan_eq (entry : Nat → Int) (tl n : Nat) (mode : Mode) :
    plan entry tl n mode =
      .add (tl - 5) 3 :: .add (modeValue mode) (modeWidth mode) ::
        (List.range n).flatMap (entryOps entry tl mode) := by
  have := planFrom_eq entry tl mode n 0
  rw [coverage_zero, Nat.sub_zero] at this
  rw [plan, this, List.range_eq_range']

/-- What a plan is made from (41_ncount_encoder.md R131). -/
theorem encodePlan_ok {tl : Nat} {s : State} {ops : List BwOp} (h : encodePlan tl s = .ok ops) :
    5 ≤ tl ∧ tl ≤ 8 ∧ ∃ n m : Nat, 0 < m ∧ scan (entryRead s) (entryLimit s) tl = .ok (n, (m : Int)) ∧
      IsTable (entryRead s) (entryLimit s) tl n ∧ IsMaxCount (entryRead s) n m ∧
      ops = plan (entryRead s) tl n (selectMode tl m) := by
  rw [encodePlan] at h
  split at h
  · simp at h
  · next htl =>
    split at h
    · simp at h
    · next n m hs =>
      split at h
      · simp at h
      · next hm =>
        cases h
        obtain ⟨h1, h2⟩ := scan_ok hs
        have he : ((m.toNat : Nat) : Int) = m := Int.toNat_of_nonneg (by omega)
        refine ⟨by omega, by omega, n, m.toNat, by omega, by rw [he]; exact hs, h1, by rw [he]; exact h2, rfl⟩

end Sys2Proof.Machine
end

