-- ==== Sys2Proof/Laws/Exec.lean ====
section
/-! SUPPORT. Everything a command can do, said once: the lemma later proofs cite instead of unfolding the meanings. -/

namespace Sys2Proof.Machine

theorem statusAfter_ok (st : Status) : statusAfter st .ok = ⟨.ok, st.sticky⟩ := by
  simp [statusAfter]

theorem statusAfter_error {st : Status} {code : ResultCode} (h : code ≠ .ok) : statusAfter st code = ⟨code, true⟩ := by
  simp [statusAfter, h]

theorem complete_eq (s : State) : complete s = .next (s.setStatus ⟨.ok, s.status.sticky⟩) := by
  rw [complete, statusAfter_ok]

theorem raiseError_eq {code : ResultCode} (h : code ≠ .ok) (s : State) :
    raiseError code s = .next (s.setStatus ⟨code, true⟩) := by
  rw [raiseError, statusAfter_error h]

/-- The codes a scan can end with (41_ncount_encoder.md R132). -/
theorem scanFrom_error {entry : Nat → Int} {limit fuel i deficit : Nat} {m : Int} {code : ResultCode}
    (h : scanFrom entry limit fuel i deficit m = .error code) : code = .coverageMismatch ∨ code = .invalidCount := by
  induction fuel generalizing i deficit m with
  | zero => simp [scanFrom] at h
  | succ fuel ih =>
    rw [scanFrom] at h
    split_ifs at h
    · cases h; exact .inl rfl
    · cases h; exact .inr rfl
    · cases h; exact .inl rfl
    · exact ih h
    · exact ih h

/-- The codes ENCODE's checks before the trial run can raise (41_ncount_encoder.md R131). -/
theorem encodePlan_error {tl : Nat} {s : State} {code : ResultCode} (h : encodePlan tl s = .error code) :
    code = .invalidTableLog ∨ code = .coverageMismatch ∨ code = .invalidCount := by
  rw [encodePlan] at h
  split at h
  · cases h; exact .inl rfl
  · split at h
    · next heq => cases h; exact .inr (scanFrom_error heq)
    · split at h
      · cases h; exact .inr (.inl rfl)
      · simp at h

/-- The codes a trial run can raise (41_ncount_encoder.md R139). -/
theorem runOps_error {policy : OverwidePolicy} {lo hi : Word} {ops : List BwOp} {b : BitWriter} {code : ResultCode}
    (h : runOps policy lo hi ops b = .error code) : code = .registerOverflow ∨ code = .bufferTooSmall := by
  induction ops generalizing b with
  | nil => simp [runOps] at h
  | cons op ops ih =>
    cases op with
    | add v w =>
      rw [runOps] at h
      split at h
      · cases h; exact .inl rfl
      · exact ih h
    | flush =>
      rw [runOps] at h
      split at h
      · cases h; exact .inr rfl
      · split at h
        · next heq => cases h; exact ih heq
        · simp at h

theorem encodeTrial_error {policy : OverwidePolicy} {tl : Nat} {s : State} {code : ResultCode}
    (h : encodeTrial policy tl s = .error code) :
    code ∈ [ResultCode.invalidTableLog, .coverageMismatch, .invalidCount, .registerOverflow, .bufferTooSmall] := by
  rw [encodeTrial] at h
  split at h
  · next heq => cases h; rcases encodePlan_error heq with rfl | rfl | rfl <;> simp
  · rcases runOps_error h with rfl | rfl <;> simp

theorem encodeTrial_ok {policy : OverwidePolicy} {tl : Nat} {s : State} {r : BitWriter × List (Word × Word)}
    (h : encodeTrial policy tl s = .ok r) :
    ∃ ops, encodePlan tl s = .ok ops ∧ runOps policy s.bufBase s.bufEnd ops s.bw = .ok r := by
  rw [encodeTrial] at h
  split at h
  · simp at h
  · next ops heq => exact ⟨ops, heq, h⟩

/-- ENCODE under either policy: the commit of a trial run that passed, or STATUS alone (41_ncount_encoder.md R139). -/
theorem encodeUnder_cases (policy : OverwidePolicy) (tl : Nat) (s : State) :
    (∃ code, encodeTrial policy tl s = .error code ∧
      code ∈ [ResultCode.invalidTableLog, .coverageMismatch, .invalidCount, .registerOverflow, .bufferTooSmall] ∧
      encodeUnder policy tl s = .next (s.setStatus ⟨code, true⟩)) ∨
    (∃ b ws, encodeTrial policy tl s = .ok (b, ws) ∧
      encodeUnder policy tl s = .next (((s.setMem (commitWrites s.mem ws)).setBw b).setStatus ⟨.ok, s.status.sticky⟩)) := by
  cases h : encodeTrial policy tl s with
  | error code =>
    have hc := encodeTrial_error h
    refine .inl ⟨code, rfl, hc, ?_⟩
    rw [encodeUnder, h]
    exact raiseError_eq (by rintro rfl; simp at hc) s
  | ok r =>
    obtain ⟨b, ws⟩ := r
    refine .inr ⟨b, ws, rfl, ?_⟩
    rw [encodeUnder, h]
    exact complete_eq _

/-- A command's five ways to end: INIT, an error, or the success of one of the other three. -/
inductive Ends (i : Instr) (s t : State) : Prop where
  | init (hi : i = .init) (ht : t = (s.setBw ⟨0, 0, s.bufBase⟩).setStatus ⟨.ok, false⟩)
  | error (code : ResultCode) (hi : i ≠ .init) (hc : code ≠ .ok) (ht : t = s.setStatus ⟨code, true⟩)
  | addbits (width : Nat) (hi : i = .addbits width) (hf : AddFits s.bw width) (hv : s.arg.toNat < 2 ^ width)
      (ht : t = (s.setBw (bwAdd s.bw s.arg.toNat width)).setStatus ⟨.ok, s.status.sticky⟩)
  | flush (hi : i = .flush) (hf : FlushFits s.bufBase s.bufEnd s.bw.cursor)
      (ht : t = ((s.setMem (memWrite4 s.mem s.bw.cursor.toNat s.bw.acc)).setBw (bwFlush s.bw)).setStatus
        ⟨.ok, s.status.sticky⟩)
  | encode (tl : Nat) (ops : List BwOp) (b : BitWriter) (ws : List (Word × Word)) (hi : i = .encode tl)
      (hp : encodePlan tl s = .ok ops) (hr : runOps overwidePolicy s.bufBase s.bufEnd ops s.bw = .ok (b, ws))
      (ht : t = ((s.setMem (commitWrites s.mem ws)).setBw b).setStatus ⟨.ok, s.status.sticky⟩)

/-- Every command ends in one of these ways, whatever the state. -/
theorem exec_ends (i : Instr) (s : State) : ∃ t, exec i s = .next t ∧ Ends i s t := by
  cases i with
  | init => exact ⟨_, rfl, .init rfl rfl⟩
  | addbits width =>
    simp only [exec, execAddbits]
    split
    · exact ⟨_, raiseError_eq (by decide) s, .error _ (by simp) (by decide) rfl⟩
    · next hf =>
      split
      · exact ⟨_, raiseError_eq (by decide) s, .error _ (by simp) (by decide) rfl⟩
      · next hv => exact ⟨_, complete_eq _, .addbits width rfl (not_not.mp hf) (Nat.lt_of_not_le hv) rfl⟩
  | flush =>
    simp only [exec, execFlush]
    split
    · exact ⟨_, raiseError_eq (by decide) s, .error _ (by simp) (by decide) rfl⟩
    · next hf => exact ⟨_, complete_eq _, .flush rfl (not_not.mp hf) rfl⟩
  | encode tl =>
    rcases encodeUnder_cases overwidePolicy tl s with ⟨code, _, hc, he⟩ | ⟨b, ws, ht, he⟩
    · exact ⟨_, he, .error code (by simp) (by rintro rfl; simp at hc) rfl⟩
    · obtain ⟨ops, hp, hr⟩ := encodeTrial_ok ht
      exact ⟨_, he, .encode tl ops b ws rfl hp hr rfl⟩

theorem exec_next {i : Instr} {s t : State} (h : exec i s = .next t) : Ends i s t := by
  obtain ⟨t', h', he⟩ := exec_ends i s
  rw [h] at h'
  cases h'
  exact he

/-! ## A plan's trial run keeps what the invariant says -/

/-- An operation whose value can be over-wide by one bit at most. -/
def GoodOp : BwOp → Prop
  | .add v w => v < 2 ^ w ∨ (v ≤ 2 ^ w ∧ 0 < w)
  | .flush => True

theorem applyPolicy_good {policy : OverwidePolicy} {v w : Nat} (h : v < 2 ^ w ∨ (v ≤ 2 ^ w ∧ 0 < w)) :
    applyPolicy policy v w < 2 ^ w ∨ (applyPolicy policy v w ≤ 2 ^ w ∧ 0 < w) := by
  cases policy with
  | literal => exact h
  | mask => exact .inl (Nat.mod_lt _ (Nat.two_pow_pos w))

theorem runOps_strayAtMost {policy : OverwidePolicy} {lo hi : Word} {ops : List BwOp} {b : BitWriter}
    {r : BitWriter × List (Word × Word)} (hg : ∀ op ∈ ops, GoodOp op) (hb : b.StrayAtMost)
    (h : runOps policy lo hi ops b = .ok r) : r.1.StrayAtMost := by
  induction ops generalizing b r with
  | nil => cases h; exact hb
  | cons op ops ih =>
    have hg' : ∀ op ∈ ops, GoodOp op := fun o ho => hg o (List.mem_cons_of_mem _ ho)
    cases op with
    | add v w =>
      obtain ⟨hf, hr⟩ := runOps_add_ok h
      exact ih hg' (bwAdd_strayAtMost hf hb (applyPolicy_good (hg _ List.mem_cons_self))) hr
    | flush =>
      obtain ⟨_, ws, hr, _⟩ := runOps_flush_ok h
      exact ih (r := (r.1, ws)) hg' (bwFlush_strayAtMost hb) hr

/-- Every operation of a plan (41_ncount_encoder.md R137, R142). -/
theorem encodePlan_ops {tl : Nat} {s : State} {ops : List BwOp} (h : encodePlan tl s = .ok ops) {v w : Nat}
    (hm : BwOp.add v w ∈ ops) : 1 ≤ w ∧ w ≤ tl + 1 ∧ v ≤ 2 ^ w := by
  obtain ⟨h5, h8, n, m, _, _, hT, hM, rfl⟩ := encodePlan_ok h
  rw [plan_eq] at hm
  simp only [List.mem_cons, BwOp.add.injEq, List.mem_flatMap, List.mem_range] at hm
  rcases hm with ⟨rfl, rfl⟩ | ⟨rfl, rfl⟩ | ⟨i, hi, hm⟩
  · omega
  · cases selectMode tl m <;> simp [modeWidth, modeValue] <;> omega
  · simp only [entryOps, List.mem_cons, BwOp.add.injEq, reduceCtorEq, List.not_mem_nil, or_false] at hm
    obtain ⟨rfl, rfl⟩ := hm
    obtain ⟨h1, h2, h3, _⟩ := entryField_bounds hT hM h5 hi
    exact ⟨h1, le_trans h2 (fixedWidth_bounds h5 _).2, h3⟩

theorem encodePlan_good {tl : Nat} {s : State} {ops : List BwOp} (h : encodePlan tl s = .ok ops) :
    ∀ op ∈ ops, GoodOp op := by
  intro op ho
  cases op with
  | add v w =>
    obtain ⟨h1, _, h3⟩ := encodePlan_ops h ho
    exact .inr ⟨h3, h1⟩
  | flush => trivial

end Sys2Proof.Machine
end

