-- ==== Sys2Proof/Laws/PerInstr.lean ====
section
/-! SUPPORT. What holds of each command as syntax, one lemma per constructor. -/

namespace Sys2Proof.Laws

open Sys2Proof

/-- The word of a well-formed command shows the fixed bits of its row of the opcode map (30_encoding.md R84). -/
def OpcodeRow.Statement (i : Instr) : Prop :=
  i.wellFormed = true → encode i &&& opcodeMask i = opcode i

theorem OpcodeRow.init : OpcodeRow.Statement .init := fun _ => by decide

theorem OpcodeRow.addbits (width : Nat) : OpcodeRow.Statement (.addbits width) := by
  intro h
  replace h : width < 64 := by simpa [Instr.wellFormed] using h
  revert width
  unfold opcode opcodeMask
  decide

theorem OpcodeRow.flush : OpcodeRow.Statement .flush := fun _ => by decide

theorem OpcodeRow.encode (tableLog : Nat) : OpcodeRow.Statement (.encode tableLog) := by
  intro h
  replace h : tableLog < 16 := by simpa [Instr.wellFormed] using h
  revert tableLog
  unfold opcode opcodeMask
  decide

end Sys2Proof.Laws
end

