-- ==== Sys2Proof/Laws/Stream.lean ====
section
/-! SUPPORT. One view of the output stream, bit by absolute bit: below CURSOR in memory, from CURSOR on in ACC. A flush does
not change it; an add changes only what it appends (20_memory.md R55). -/

namespace Sys2Proof.Machine

/-- The absolute position after the last valid bit. -/
def streamPos (b : BitWriter) : Nat := 8 * b.cursor.toNat + b.fill.toNat

/-- Bit `p` of the address space as the stream sees it. -/
def streamView (b : BitWriter) (m : Memory) (p : Nat) : Option Bool :=
  if p < 8 * b.cursor.toNat then memoryBit m 0 p else some (b.acc.getLsbD (p - 8 * b.cursor.toNat))

theorem memoryBit_base (m : Memory) (base p : Nat) : memoryBit m base p = memoryBit m 0 (8 * base + p) := by
  unfold memoryBit
  rw [show base + p / 8 = 0 + (8 * base + p) / 8 by omega, show p % 8 = (8 * base + p) % 8 by omega]

/-- The bits of a 4-byte write. -/
theorem memoryBit_memWrite4 (m : Memory) (addr : Nat) (v : Word) (p : Nat) :
    memoryBit (memWrite4 m addr v) 0 p =
      if 8 * addr ≤ p ∧ p < 8 * addr + 32 then some (v.getLsbD (p - 8 * addr)) else memoryBit m 0 p := by
  unfold memoryBit
  rw [readByte_memWrite4]
  by_cases h : 8 * addr ≤ p ∧ p < 8 * addr + 32
  · rw [if_pos h, if_pos (by omega), Option.map_some, byteOf_getLsbD _ _ _ (by omega)]
    congr 2; omega
  · rw [if_neg h, if_neg (by omega)]

theorem streamPos_bwAdd {b : BitWriter} {w : Nat} (h : AddFits b w) (v : Nat) :
    streamPos (bwAdd b v w) = streamPos b + w := by
  rw [streamPos, streamPos, bwAdd_fill h, bwAdd_cursor]; omega

theorem streamPos_bwFlush {b : BitWriter} {lo hi : Word} (hf : b.fill.toNat ≤ 32) (h : FlushFits lo hi b.cursor) :
    streamPos (bwFlush b) = streamPos b := by
  rw [streamPos, streamPos, bwFlush_cursor hf h, bwFlush_fill]; omega

/-- A flush moves bits from ACC to memory and changes none (40_bitwriter.md R105). -/
theorem streamView_bwFlush {b : BitWriter} {lo hi : Word} (hf : b.fill.toNat ≤ 32) (h : FlushFits lo hi b.cursor)
    (m : Memory) (p : Nat) :
    streamView (bwFlush b) (memWrite4 m b.cursor.toNat b.acc) p = streamView b m p := by
  have hc := bwFlush_cursor hf h
  unfold streamView
  rw [hc, bwFlush_acc_bit, memoryBit_memWrite4]
  by_cases h1 : p < 8 * b.cursor.toNat
  · rw [if_pos (by omega), if_neg (by omega), if_pos h1]
  · by_cases h2 : p < 8 * (b.cursor.toNat + b.fill.toNat / 8)
    · rw [if_pos h2, if_pos (by omega), if_neg h1]
    · rw [if_neg h2, if_neg h1]
      congr 2; omega

/-- An add appends at the end of the stream (40_bitwriter.md R104). -/
theorem streamView_bwAdd (b : BitWriter) (v w : Nat) (m : Memory) (p : Nat) :
    streamView (bwAdd b v w) m p =
      if p < streamPos b then streamView b m p
      else some (b.acc.getLsbD (p - 8 * b.cursor.toNat) ||
        (decide (p - 8 * b.cursor.toNat < 32) && v.testBit (p - streamPos b))) := by
  unfold streamView streamPos
  rw [bwAdd_cursor, bwAdd_acc_bit]
  by_cases h1 : p < 8 * b.cursor.toNat
  · rw [if_pos h1, if_pos (by omega), if_pos h1]
  · rw [if_neg h1, if_neg h1]
    by_cases h2 : p < 8 * b.cursor.toNat + b.fill.toNat
    · rw [if_pos h2, decide_eq_false (p := b.fill.toNat ≤ _) (by omega)]; simp
    · rw [if_neg h2, decide_eq_true (p := b.fill.toNat ≤ _) (by omega)]
      simp only [Bool.and_true]
      congr 4; omega

theorem getLsbD_of_clean {b : BitWriter} (h : b.Clean) {q : Nat} (hq : b.fill.toNat ≤ q) : b.acc.getLsbD q = false := by
  rw [BitVec.getLsbD]
  exact Nat.testBit_lt_two_pow (lt_of_lt_of_le h (Nat.pow_le_pow_right (by norm_num) hq))

theorem fieldBits_length (v w : Nat) : (fieldBits v w).length = w := by simp [fieldBits]

theorem fieldBits_get (v w k : Nat) : (fieldBits v w)[k]? = if k < w then some (v.testBit k) else none := by
  simp only [fieldBits, List.getElem?_map]
  split
  · next h => rw [List.getElem?_range h]; rfl
  · next h => rw [List.getElem?_eq_none (by simpa using h)]; rfl

/-- What an add appends to a clean stream: its field's bits. -/
theorem streamView_bwAdd_clean {b : BitWriter} {v w : Nat} (hc : b.Clean) (hf : AddFits b w) (m : Memory) {k : Nat}
    (hk : k < w) : streamView (bwAdd b v w) m (streamPos b + k) = (fieldBits v w)[k]? := by
  have hf' : b.fill.toNat + w ≤ 32 := hf
  rw [streamView_bwAdd, if_neg (by omega), fieldBits_get, if_pos hk, getLsbD_of_clean hc (by unfold streamPos; omega),
    decide_eq_true (by unfold streamPos; omega)]
  simp

/-- The position a trial run ends at: each add appends its width. -/
theorem runOps_pos {policy : OverwidePolicy} {lo hi : Word} {ops : List BwOp} {b : BitWriter}
    {r : BitWriter × List (Word × Word)} (hb : b.fill.toNat ≤ 32) (h : runOps policy lo hi ops b = .ok r) :
    streamPos r.1 = streamPos b + (streamBits ops).length := by
  induction ops generalizing b r with
  | nil => cases h; rfl
  | cons op ops ih =>
    cases op with
    | add v w =>
      obtain ⟨hf, hr⟩ := runOps_add_ok h
      have := ih (b := bwAdd b (applyPolicy policy v w) w) (by rw [bwAdd_fill hf]; exact hf) hr
      rw [this, streamPos_bwAdd hf, streamBits, List.length_append, fieldBits_length, Nat.add_assoc]
    | flush =>
      obtain ⟨hf, ws, hr, _⟩ := runOps_flush_ok h
      have := ih (r := (r.1, ws)) (by rw [bwFlush_fill]; omega) hr
      rw [show streamPos r.1 = _ from this, streamPos_bwFlush hb hf, streamBits]

/-- A trial run and its commit change no bit below the position it starts at. -/
theorem runOps_view_below {policy : OverwidePolicy} {lo hi : Word} {ops : List BwOp} {b : BitWriter}
    {r : BitWriter × List (Word × Word)} (hb : b.fill.toNat ≤ 32) (h : runOps policy lo hi ops b = .ok r) (m : Memory)
    {p : Nat} (hp : p < streamPos b) : streamView r.1 (commitWrites m r.2) p = streamView b m p := by
  induction ops generalizing b r m with
  | nil => cases h; rfl
  | cons op ops ih =>
    cases op with
    | add v w =>
      obtain ⟨hf, hr⟩ := runOps_add_ok h
      rw [ih (b := bwAdd b (applyPolicy policy v w) w) (by rw [bwAdd_fill hf]; exact hf) hr m
        (by rw [streamPos_bwAdd hf]; omega), streamView_bwAdd, if_pos hp]
    | flush =>
      obtain ⟨hf, ws, hr, h2⟩ := runOps_flush_ok h
      rw [h2, commitWrites_cons, ← streamView_bwFlush hb hf]
      exact ih (r := (r.1, ws)) (by rw [bwFlush_fill]; omega) hr _ (by rw [streamPos_bwFlush hb hf]; exact hp)

/-- A trial run of operations whose values fit keeps ACC clean and appends exactly its fields' bits. -/
theorem runOps_view_fits {policy : OverwidePolicy} {lo hi : Word} {ops : List BwOp} {b : BitWriter}
    {r : BitWriter × List (Word × Word)} (hv : ∀ v w, BwOp.add v w ∈ ops → v < 2 ^ w) (hb : b.fill.toNat ≤ 32)
    (hc : b.Clean) (h : runOps policy lo hi ops b = .ok r) (m : Memory) :
    r.1.Clean ∧ ∀ k < (streamBits ops).length,
      streamView r.1 (commitWrites m r.2) (streamPos b + k) = (streamBits ops)[k]? := by
  induction ops generalizing b r m with
  | nil => cases h; exact ⟨hc, by simp [streamBits]⟩
  | cons op ops ih =>
    have hv' : ∀ v w, BwOp.add v w ∈ ops → v < 2 ^ w := fun v w ho => hv v w (List.mem_cons_of_mem _ ho)
    cases op with
    | add v w =>
      obtain ⟨hf, hr⟩ := runOps_add_ok h
      have hvw := hv v w List.mem_cons_self
      have hpol : applyPolicy policy v w = v := by
        cases policy with
        | literal => rfl
        | mask => exact Nat.mod_eq_of_lt hvw
      rw [hpol] at hr
      have hf32 : (bwAdd b v w).fill.toNat ≤ 32 := by rw [bwAdd_fill hf]; exact hf
      obtain ⟨h1, h2⟩ := ih hv' hf32 (bwAdd_clean hf hvw (.inl hc)) hr m
      refine ⟨h1, fun k hk => ?_⟩
      rw [streamBits] at hk ⊢
      rw [List.length_append, fieldBits_length] at hk
      by_cases hkw : k < w
      · rw [runOps_view_below hf32 hr m (by rw [streamPos_bwAdd hf]; omega), streamView_bwAdd_clean hc hf m hkw,
          List.getElem?_append_left (by rw [fieldBits_length]; exact hkw)]
      · have := h2 (k - w) (by omega)
        rw [streamPos_bwAdd hf, show streamPos b + w + (k - w) = streamPos b + k by omega] at this
        rw [this, List.getElem?_append_right (by rw [fieldBits_length]; omega), fieldBits_length]
    | flush =>
      obtain ⟨hf, ws, hr, h2⟩ := runOps_flush_ok h
      obtain ⟨h1, h3⟩ := ih (r := (r.1, ws)) hv' (by rw [bwFlush_fill]; omega) (bwFlush_clean hc) hr
        (memWrite4 m b.cursor.toNat b.acc)
      rw [streamPos_bwFlush hb hf] at h3
      rw [h2, commitWrites_cons]
      exact ⟨h1, h3⟩

/-- A run over joined operations is one run after the other. -/
theorem runOps_append_ok {policy : OverwidePolicy} {lo hi : Word} {xs ys : List BwOp} {b : BitWriter}
    {r : BitWriter × List (Word × Word)} (h : runOps policy lo hi (xs ++ ys) b = .ok r) :
    ∃ r1 r2, runOps policy lo hi xs b = .ok r1 ∧ runOps policy lo hi ys r1.1 = .ok r2 ∧ r = (r2.1, r1.2 ++ r2.2) := by
  induction xs generalizing b r with
  | nil => exact ⟨(b, []), r, rfl, h, rfl⟩
  | cons op xs ih =>
    cases op with
    | add v w =>
      obtain ⟨hf, hr⟩ := runOps_add_ok h
      obtain ⟨r1, r2, h1, h2, h3⟩ := ih hr
      exact ⟨r1, r2, by rw [runOps, if_neg (not_not.mpr hf)]; exact h1, h2, h3⟩
    | flush =>
      obtain ⟨hf, ws, hr, he⟩ := runOps_flush_ok h
      obtain ⟨r1, r2, h1, h2, h3⟩ := ih hr
      refine ⟨(r1.1, (b.cursor, b.acc) :: r1.2), r2, by rw [runOps, if_neg (not_not.mpr hf), h1], h2, ?_⟩
      obtain ⟨r1', r2'⟩ := r
      cases h3
      simp only at he
      rw [he]; rfl

theorem commitWrites_append (m : Memory) (xs ys : List (Word × Word)) :
    commitWrites m (xs ++ ys) = commitWrites (commitWrites m xs) ys := by
  induction xs generalizing m with
  | nil => rfl
  | cons p xs ih => exact ih _

theorem streamBits_append (xs ys : List BwOp) : streamBits (xs ++ ys) = streamBits xs ++ streamBits ys := by
  induction xs with
  | nil => rfl
  | cons op xs ih =>
    cases op with
    | add v w => rw [List.cons_append, streamBits, streamBits, ih, List.append_assoc]
    | flush => exact ih

/-- A plan is operations whose values fit, then the last entry's field and flush (41_ncount_encoder.md R137, R141). -/
theorem encodePlan_split {tl : Nat} {s : State} {ops : List BwOp} (h : encodePlan tl s = .ok ops) :
    ∃ front v w, ops = front ++ [.add v w, .flush] ∧ (∀ v w, BwOp.add v w ∈ front → v < 2 ^ w) ∧ 1 ≤ w ∧ v ≤ 2 ^ w := by
  obtain ⟨h5, h8, n, m, _, _, hT, hM, rfl⟩ := encodePlan_ok h
  obtain ⟨k, rfl⟩ : ∃ k, n = k + 1 := ⟨n - 1, by have := hT.pos; omega⟩
  obtain ⟨h1, _, h3, _⟩ := entryField_bounds hT hM h5 (Nat.lt_succ_self k)
  refine ⟨.add (tl - 5) 3 :: .add (modeValue (selectMode tl m)) (modeWidth (selectMode tl m)) ::
    (List.range k).flatMap (entryOps (entryRead s) tl (selectMode tl m)),
    (entryField (entryRead s) tl (selectMode tl m) k).1, (entryField (entryRead s) tl (selectMode tl m) k).2, ?_, ?_, h1, h3⟩
  · rw [plan_eq, List.range_succ, List.flatMap_append]
    simp [entryOps]
  · intro v w hm
    simp only [List.mem_cons, BwOp.add.injEq, List.mem_flatMap, List.mem_range] at hm
    rcases hm with ⟨rfl, rfl⟩ | ⟨rfl, rfl⟩ | ⟨i, hi, hm⟩
    · omega
    · cases selectMode tl m <;> simp [modeWidth, modeValue]
    · simp only [entryOps, List.mem_cons, BwOp.add.injEq, reduceCtorEq, List.not_mem_nil, or_false] at hm
      obtain ⟨rfl, rfl⟩ := hm
      obtain ⟨_, _, g3, g4⟩ := entryField_bounds hT hM h5 (show i < k + 1 by omega)
      refine lt_of_le_of_ne g3 (fun he => ?_)
      have := (g4.mp he).1
      omega

end Sys2Proof.Machine
end

