-- ==== Sys2Proof/Tests/Slice0.lean ====
section
/-! SUPPORT. Tests with expected values from the spec's vectors (95_test_vectors.md), and a witness for the hypotheses of
every statement. -/

namespace Sys2Proof.Tests

open Sys2Proof Sys2Proof.Machine

/-! ## Small states -/

/-- The next state, if there is one. -/
def nextOf : Host.Outcome State Fault Refusal → Option State
  | .next s => some s
  | .fault _ => none
  | .refused _ => none

/-- A BitWriter in the buffer [0x2000, 0x2008), as 95_test_vectors.md sections 2.2 and 2.3 start. -/
def writing (acc : Word) (fill : BitVec 6) (cursor arg : Word) : State :=
  { State.reset with bufBase := 0x2000, bufEnd := 0x2008, arg := arg, bw := ⟨acc, fill, cursor⟩ }

/-- Entries in the source, after SETBUF 0x1000, bufEnd (95_test_vectors.md, conventions). -/
def tableIn (bufEnd : Word) (counts : List Int) : State :=
  { State.reset with
    bufBase := 0x1000, bufEnd := bufEnd, entryCount := BitVec.ofNat 32 counts.length,
    entries := counts.map (BitVec.ofInt 32), bw := ⟨0, 0, 0x1000⟩ }

/-- The fixture of V-E1. -/
def fixture : State := tableIn 0x1010 [20, 4, 4, 4]

/-- The first `n` bytes at an address. -/
def bytesAt (s : State) (a n : Nat) : List (Option Byte) := (List.range n).map fun k => readByte s.mem (a + k)

/-- A state in which the host's next access is `a`. -/
def next (s : State) (a : HostAccess) : State := s.putAccess a

/-! ## Well-formedness, decoding -/

theorem test_wellFormed_refuses_addbits_64 : Instr.wellFormed (.addbits 64) = false := by decide
theorem test_wellFormed_refuses_encode_16 : Instr.wellFormed (.encode 16) = false := by decide

/-- 30_encoding.md R81: INIT is OP 0x1. -/
theorem test_decode_init : decode 0b0000000000000000000000000000_0001#32 = .ok .init := by decide
/-- 30_encoding.md R82: W is [9:4], OP 0x2; W = 0b101001 = 41. -/
theorem test_decode_addbits : decode 0b0000000000000000000000_101001_0010#32 = .ok (.addbits 41) := by decide
/-- 30_encoding.md R81: FLUSH is OP 0x3. -/
theorem test_decode_flush : decode 0b0000000000000000000000000000_0011#32 = .ok .flush := by decide
/-- 30_encoding.md R83: TL is [7:4], OP 0x4; TL = 0b0110 = 6. -/
theorem test_decode_encode : decode 0b000000000000000000000000_0110_0100#32 = .ok (.encode 6) := by decide
/-- 95_test_vectors.md V-D1 to V-D9. -/
theorem test_decode_rejects :
    decode 0x0 = .error (.illegalOpcode 0x0) ∧ decode 0x5 = .error (.illegalOpcode 0x5) ∧
    decode 0xFFFFFFFF = .error (.illegalOpcode 0xF) ∧ decode 0x11 = .error (.reservedBits 0x1) ∧
    decode 0x80000001 = .error (.reservedBits 0x1) ∧ decode 0x13 = .error (.reservedBits 0x3) ∧
    decode 0x402 = .error (.reservedBits 0x2) ∧ decode 0x104 = .error (.reservedBits 0x4) :=
  ⟨rfl, rfl, rfl, rfl, rfl, rfl, rfl, rfl⟩
/-- The table's numbering: a row of 32 bits, and bits above the row cut off. -/
theorem test_decodeTableWord : decodeTableWord 32 0x62 = some (.addbits 6) ∧ decodeTableWord 32 0 = none ∧
    decodeTableWord 4 0x13 = some .flush := by decide

/-- The examples of 30_encoding.md R88, and PUTF of R90. -/
theorem test_assembler : assemble ["ADDBITS".toList, "6".toList] = some 0x62 ∧
    assemble ["addbits".toList, "0x20".toList] = some 0x202 ∧ assemble ["Encode".toList, "8".toList] = some 0x84 ∧
    putf 0x39 6 = [.regWrite 4 0x08 0x39, .regWrite 4 0x00 0x62, .regWrite 4 0x00 0x3] := by decide

/-! ## One step each -/

/-- V-I1. -/
theorem test_init : (nextOf (exec .init { State.reset with bufBase := 0x1000, bw := ⟨0xFFFF, 17, 0x2345⟩, status :=
      ⟨.coverageMismatch, true⟩ })).map (fun t => (t.bw, t.status)) = some (⟨0, 0, 0x1000⟩, ⟨.ok, false⟩) := by decide

/-- V-A7. -/
theorem test_addbits_fills_the_register : (nextOf (exec (.addbits 29) (writing 0x7 3 0x2000 0x1FFFFFFF))).map
    (fun t => (t.bw, t.status)) = some (⟨0xFFFFFFFF, 32, 0x2000⟩, ⟨.ok, false⟩) := by decide
/-- V-A9: the capacity is checked before the value. -/
theorem test_addbits_overflow_before_value : (nextOf (exec (.addbits 32) (writing 0x7 3 0x2000 0xFFFFFFFF))).map
    (fun t => (t.bw, t.status)) = some (⟨0x7, 3, 0x2000⟩, ⟨.registerOverflow, true⟩) := by decide

/-- V-F7. -/
theorem test_flush_keeps_the_carried_bits : (nextOf (exec .flush (writing 0x736 11 0x2000 0))).map
    (fun t => (t.bw, bytesAt t 0x2000 4)) =
      some (⟨0x07, 3, 0x2001⟩, [some 0x36, some 0x07, some 0x00, some 0x00]) := by decide
/-- V-F6. -/
theorem test_flush_of_a_full_register : (nextOf (exec .flush (writing 0x12345678 32 0x2000 0))).map
    (fun t => (t.bw, bytesAt t 0x2000 4)) =
      some (⟨0, 0, 0x2004⟩, [some 0x78, some 0x56, some 0x34, some 0x12]) := by decide

/-- V-E1. -/
theorem test_encode_fixture : (nextOf (exec (.encode 5) fixture)).map (fun t => (t.bw, t.status, bytesAt t 0x1000 7)) =
    some (⟨0x11, 4, 0x1002⟩, ⟨.ok, false⟩,
      [some 0xA0, some 0x62, some 0x11, some 0, some 0, some 0, none]) := by decide +kernel
/-- V-T3: the fixed path at n = n0 + 1, and a sentinel last. -/
theorem test_encode_threshold : (nextOf (exec (.encode 6) (tableIn 0x1010 [15, 15, 3, 30, -1]))).map
    (fun t => (t.bw, bytesAt t 0x1000 4)) =
      some (⟨0x0, 1, 0x1003⟩, [some 0x09, some 0x21, some 0xF9, some 0x00]) := by decide +kernel

/-- V-D2 through a step: an illegal word changes STATUS alone. -/
theorem test_step_illegal : (nextOf (step (next (writing 0x3 2 0x2000 0) (cmdWrite 0x5)))).map
    (fun t => (t.bw, statusWord t.status, t.mem)) = some (⟨0x3, 2, 0x2000⟩, 0x11, []) := by decide

/-! ## Witnesses: encoding and the step -/

theorem witness_IllegalWordsRaiseIllegalCommand :
    (∀ w ∈ [0x10#32, 0x5#32, 0xF#32, 0x11#32, 0x13#32, 0x402#32, 0x104#32],
      (w.toNat % 16 = 0 ∨ 5 ≤ w.toNat % 16 ∨ ((w.toNat % 16 = 1 ∨ w.toNat % 16 = 3) ∧ w.toNat / 2 ^ 4 ≠ 0) ∨
        (w.toNat % 16 = 2 ∧ w.toNat / 2 ^ 10 ≠ 0) ∨ (w.toNat % 16 = 4 ∧ w.toNat / 2 ^ 8 ≠ 0)) ∧
      (next State.reset (cmdWrite w)).pending = cmdWrite w :: []) ∧
    ∀ w ∈ [0x1#32, 0x3F2#32, 0x3#32, 0xF4#32], ¬ (w.toNat % 16 = 0 ∨ 5 ≤ w.toNat % 16 ∨
      ((w.toNat % 16 = 1 ∨ w.toNat % 16 = 3) ∧ w.toNat / 2 ^ 4 ≠ 0) ∨
      (w.toNat % 16 = 2 ∧ w.toNat / 2 ^ 10 ≠ 0) ∨ (w.toNat % 16 = 4 ∧ w.toNat / 2 ^ 8 ≠ 0)) := by
  simp [next, State.putAccess, State.reset]

theorem witness_DecodeOfEncodeIsTheCommand :
    ∀ i ∈ [Instr.init, .addbits 0, .addbits 63, .flush, .encode 0, .encode 15], i.wellFormed = true := by decide

theorem witness_EncodeOfDecodeIsTheWord : decode 0x3F2#32 = .ok (.addbits 63) ∧ decode 0xF4#32 = .ok (.encode 15) := by
  decide

theorem witness_RejectedOperandsAreLegalEncodings :
    (∀ w ∈ [33, 63], 33 ≤ w ∧ w ≤ 63) ∧ ∀ tl ∈ [0, 4, 9, 15], tl ≤ 15 ∧ (tl < 5 ∨ 8 < tl) := by decide

theorem witness_StepRunsTheDecodedCommand :
    (next State.reset (.regWrite 4 0x00 0x62)).pending = .regWrite 4 0x00 0x62 :: [] ∧ decode 0x62 = .ok (.addbits 6) ∧
    (next State.reset (.regWrite 4 0x00 0)).pending = .regWrite 4 0x00 0 :: [] ∧ decode 0 = .error (.illegalOpcode 0) ∧
    (next State.reset (.regRead 4 0x00)).pending = .regRead 4 0x00 :: [] := by decide

theorem witness_RegisterAccessSemantics :
    (∀ o ∈ [0x00, 0x04, 0x08, 0x0C, 0x10, 0x14, 0x18, 0x1C, 0x20],
      (next State.reset (.regWrite 4 o 7)).pending = .regWrite 4 o 7 :: []) ∧
    ∀ o ∈ [0x00, 0x20], (next State.reset (.regRead 4 o)).pending = .regRead 4 o :: [] := by decide

theorem witness_UnmappedOffsetsReadZeroAndIgnoreWrites :
    ∀ o ∈ [0x24, 0xFC], 0x24 ≤ o ∧ o ≤ 0xFC ∧ o % 4 = 0 ∧
      (next State.reset (.regRead 4 o)).pending = .regRead 4 o :: [] ∧
      (next State.reset (.regWrite 4 o 7)).pending = .regWrite 4 o 7 :: [] := by decide

theorem witness_OnlyAlignedWordAccessesAreInTheInterface :
    (∀ p ∈ [(1, 0), (2, 4), (8, 8), (4, 1), (4, 255)], p.2 < 256 ∧ ¬ (p.1 = 4 ∧ p.2 % 4 = 0) ∧
      (next State.reset (.regWrite p.1 p.2 7)).pending = .regWrite p.1 p.2 7 :: []) ∧
    ∀ o ∈ [0, 0x24, 252], o < 256 ∧ o % 4 = 0 ∧ (next State.reset (.regRead 4 o)).pending = .regRead 4 o :: [] := by
  decide

theorem witness_AccessesOutsideTheSpacesStop :
    256 ≤ 256 ∧ (next State.reset (.regWrite 4 256 0)).pending = .regWrite 4 256 0 :: [] ∧
    (next State.reset (.regRead 4 256)).pending = .regRead 4 256 :: [] ∧
    (next State.reset (.memWrite (2 ^ 32) 0)).pending = .memWrite (2 ^ 32) 0 :: [] ∧
    (next State.reset (.memRead (2 ^ 32))).pending = .memRead (2 ^ 32) :: [] ∧
    (next State.reset .foreignAccess).pending = .foreignAccess :: [] := by decide

theorem witness_HostOwnsMemoryAndEntries :
    (∀ a ∈ [0, 2 ^ 32 - 1], a < 2 ^ 32 ∧
      (next (next State.reset (.memRead a)) (.memWrite a 9)).pending = .memWrite a 9 :: .memRead a :: []) ∧
    (next State.reset (.supplyEntries [0x80000000])).pending = .supplyEntries [0x80000000] :: [] := by decide

/-- Entry 3 is the last supplied one; entry 6 lies past it. -/
theorem witness_HostReadsAndWritesSingleEntries :
    (∀ i ∈ [0, 3, 6], (next (next fixture (.sourceRead i)) (.sourceWrite i 9)).pending =
      .sourceWrite i 9 :: .sourceRead i :: []) ∧
    3 < fixture.entries.length ∧ 1 ≠ 3 ∧ (next fixture (.sourceRead 3)).pending = .sourceRead 3 :: [] := by decide

theorem witness_IdleBlockKeepsItsState : State.reset.pending = [] := by decide

theorem witness_WindowLiesAtRegBase : (∀ o ∈ [0, 255], o < 256) ∧
    Config.regBase + 256 ≤ Config.regBase + 256 := by simp

/-! ## Witnesses: reset, invariants and the BitWriter commands -/

theorem witness_ResetZeroesEveryRegister :
    (next (writing 0x3 2 0x2000 5) .reset).pending = .reset :: [] := by decide

/-- The state that V-E1 ends in, which has a stray bit, with a CMD write to come. -/
theorem witness_EveryStepKeepsTheInvariant :
    (next (writing 0x11 4 0x2002 0) (cmdWrite 0x3)).Inv ∧
    ∃ t, step (next (writing 0x11 4 0x2002 0) (cmdWrite 0x3)) = .next t :=
  ⟨⟨by decide, by decide, by decide⟩, _, rfl⟩

theorem witness_FillIsAtMost32InEveryReachableState : Reachable { State.reset with mem := [], entries := [], pending := [cmdWrite 1] } :=
  .reset [] [] [cmdWrite 1] (by decide)

theorem witness_FillIsAtMost7AfterFlushAndEncode :
    (∃ t, exec .flush (writing 0x12345678 32 0x2000 0) = .next t ∧ t.status.result = .ok) ∧
    ∃ t, exec (.encode 5) fixture = .next t ∧ t.status.result = .ok :=
  ⟨⟨_, rfl, by decide⟩, _, rfl, by decide +kernel⟩

theorem witness_OnlyEncodeLeavesABitAboveFill :
    (∀ tl, Instr.addbits 6 ≠ .encode tl) ∧ (writing 0x16 5 0x2000 0x39).bw.fill.toNat ≤ 32 ∧
    (writing 0x16 5 0x2000 0x39).bw.Clean ∧ ∃ t, exec (.addbits 6) (writing 0x16 5 0x2000 0x39) = .next t :=
  ⟨nofun, by decide, by decide, _, rfl⟩

/-- V-I3's buffer. -/
theorem witness_InitEffect :
    ({ State.reset with bufBase := 0x3000, bufEnd := 0x2000 } : State).bufEnd.toNat ≤
      ({ State.reset with bufBase := 0x3000, bufEnd := 0x2000 } : State).bufBase.toNat := by decide

/-- V-A5, V-A8, V-A7, and the operand's range. -/
theorem witness_AddbitsEffect :
    32 < (writing 0x1 1 0x2000 0).bw.fill.toNat + 32 ∧
    ((writing 0x7 3 0x2000 0x20000000).bw.fill.toNat + 29 ≤ 32 ∧ 2 ^ 29 ≤ (writing 0x7 3 0x2000 0x20000000).arg.toNat) ∧
    ((writing 0x7 3 0x2000 0x1FFFFFFF).bw.fill.toNat + 29 ≤ 32 ∧ (writing 0x7 3 0x2000 0x1FFFFFFF).arg.toNat < 2 ^ 29) ∧
    ((writing 0x7 3 0x2000 0).bw.fill.toNat + 0 ≤ 32 ∧ (writing 0x7 3 0x2000 0).arg.toNat < 2 ^ 0) ∧ 63 < 64 := by decide

/-- V-F11, V-F10, V-F6 and V-F9. -/
theorem witness_FlushEffect :
    (writing 0x1 1 0x1FFF 0).bw.cursor.toNat < (writing 0x1 1 0x1FFF 0).bufBase.toNat ∧
    (writing 0x1 1 0x2005 0).bufEnd.toNat < (writing 0x1 1 0x2005 0).bw.cursor.toNat + 4 ∧
    ∀ s ∈ [writing 0x12345678 32 0x2000 0, writing 0x1 1 0x2004 0], s.bufBase.toNat ≤ s.bw.cursor.toNat ∧
      s.bw.cursor.toNat + 4 ≤ s.bufEnd.toNat ∧ s.bw.fill.toNat ≤ 32 := by decide

theorem witness_MemWriteStoresFourLittleEndianBytes :
    Memory.wf [] ∧ (2 ^ 32 - 4) + 4 ≤ 2 ^ 32 ∧ FlushFits 0xFFFFFFF0 0xFFFFFFFF 0xFFFFFFFB ∧ 3 ≤ 3 := by decide

/-- V-F7 and V-F8. -/
theorem witness_SecondFlushKeepsTheBitWriter :
    ∃ t u, exec .flush (writing 0x736 11 0x2000 0) = .next t ∧ t.status.result = .ok ∧ exec .flush t = .next u ∧
      u.status.result = .ok :=
  ⟨_, _, rfl, by decide, rfl, by decide⟩

theorem witness_SixBitsAtFillFiveSplit :
    ∀ s ∈ [writing 0x16 5 0x2000 0x39, writing 0x1F 5 0x2004 0x3F], s.bw.fill.toNat = 5 ∧ s.bw.acc.toNat < 2 ^ 5 ∧
      s.arg.toNat < 2 ^ 6 ∧ s.bufBase.toNat ≤ s.bw.cursor.toNat ∧ s.bw.cursor.toNat + 4 ≤ s.bufEnd.toNat := by decide

theorem witness_FlushingEachAddEqualsFlushingOnce :
    (∀ f ∈ [(0x16, 5), (0x39, 6), (0x1FFFFF, 21)], f.1 < 2 ^ f.2) ∧
    (0#6).toNat + ([(0x16, 5), (0x39, 6), (0x1FFFFF, 21)].map Prod.snd).sum ≤ 32 ∧
    (∃ r, runOps .literal 0x2000 0x2008
      ([(0x16, 5), (0x39, 6), (0x1FFFFF, 21)].flatMap fun f => [.add f.1 f.2, .flush]) ⟨0, 0, 0x2000⟩ = .ok r) ∧
    ∃ r, runOps .literal 0x2000 0x2008
      ([(0x16, 5), (0x39, 6), (0x1FFFFF, 21)].map (fun f => .add f.1 f.2) ++ [.flush]) ⟨0, 0, 0x2000⟩ = .ok r :=
  ⟨by decide, by decide, ⟨_, rfl⟩, _, rfl⟩

/-- V-A12. -/
theorem witness_AppendedBitMergesWithTheStrayBit :
    (writing 0x20 5 0x2000 0).bw.acc.getLsbD 5 = true ∧
    ∃ t, exec (.addbits 1) (writing 0x20 5 0x2000 0) = .next t ∧ t.status.result = .ok :=
  ⟨by decide, _, rfl, by decide⟩

/-! ## Witnesses: every command -/

/-- The plan of the fixture (V-E1). -/
def fixturePlan : List BwOp :=
  [.add 0 3, .add 0 2, .add 21 5, .flush, .add 8 4, .flush, .add 5 3, .flush, .add 8 3, .flush]

theorem fixture_plan : encodePlan 5 fixture = .ok fixturePlan := rfl

theorem fixture_isTable : IsTable (entryRead fixture) fixture.entryCount.toNat 5 4 :=
  ⟨by decide, by decide, by decide⟩

theorem fixture_isMaxCount : IsMaxCount (entryRead fixture) 4 20 := ⟨⟨0, by decide, by decide⟩, by decide⟩

theorem witness_EveryCommandEndsInANextState :
    encodePlan 5 fixture = .ok fixturePlan ∧
    ∀ i < min 4 (2 ^ 5), entryRead fixture i = entryRead (tableIn 0x1010 [20, 4, 4, 4, 0]) i :=
  ⟨fixture_plan, by decide⟩

/-- V-F10. -/
theorem witness_FailingCommandChangesOnlyStatus :
    ∃ t, exec .flush (writing 0x1 1 0x2005 0) = .next t ∧ t.status.result ≠ .ok := ⟨_, rfl, by decide⟩

/-- Every command ends in a next state on the fixture. -/
theorem witness_exec_next (i : Instr) (hi : i ∈ [Instr.init, .addbits 6, .flush, .encode 5]) :
    (nextOf (exec i fixture)).isSome = true := by
  revert i; decide +kernel

theorem witness_EveryCommandFinishesStatus : ∃ t, exec (.encode 5) fixture = .next t := ⟨_, rfl⟩

theorem witness_NoCommandWritesWhatTheHostWrites : ∃ t, exec (.encode 5) fixture = .next t := ⟨_, rfl⟩

theorem witness_NoCommandWritesOutsideTheBuffer :
    (∃ t, exec (.encode 5) fixture = .next t) ∧ 0xFFF < fixture.bufBase.toNat ∧ fixture.bufEnd.toNat ≤ 0x1010 ∧
    Instr.init = .init ∧ ∃ width, Instr.addbits 6 = .addbits width := ⟨⟨_, rfl⟩, by decide, by decide, rfl, 6, rfl⟩

theorem witness_CursorOnlyMovesForward :
    ∃ t, Instr.flush ≠ .init ∧ (writing 0x12345678 32 0x2004 0).bw.fill.toNat ≤ 32 ∧
      exec .flush (writing 0x12345678 32 0x2004 0) = .next t ∧ t.bw.cursor ≠ (writing 0x12345678 32 0x2004 0).bw.cursor :=
  ⟨_, by decide, by decide, rfl, by decide⟩

/-- V-F8: a second flush over the byte at CURSOR. -/
theorem witness_CommittedBitsAreFinal :
    ∃ s t, exec .flush (writing 0x736 11 0x2000 0) = .next s ∧ s.bw.fill.toNat ≤ 32 ∧ HeldInMemory s ∧
      exec .flush s = .next t :=
  ⟨_, _, rfl, by decide, by unfold HeldInMemory; decide, rfl⟩

theorem witness_CommandsRunTheSameWhateverStatus :
    ∃ t, exec (.addbits 6) (writing 0x16 5 0x2000 0x39) = .next t := ⟨_, rfl⟩

/-- V-F10, V-F11. -/
theorem witness_NoFlushOutsideTheWindow :
    (writing 0x1 1 0x1FFF 0).bw.cursor.toNat < (writing 0x1 1 0x1FFF 0).bufBase.toNat ∧
    (writing 0x1 1 0x2005 0).bufEnd.toNat < (writing 0x1 1 0x2005 0).bw.cursor.toNat + 4 := by decide

/-! ## Witnesses: ENCODE -/

theorem witness_TableLogOutsideRangeIsRejectedFirst : ∀ tl ∈ [4, 9], tl < 5 ∨ 8 < tl := by decide

theorem tableIn_reaches (bufEnd : Word) (counts : List Int) (tl i : Nat)
    (h : (∀ j < i, ValidCount (entryRead (tableIn bufEnd counts) j)) ∧
      coverage (entryRead (tableIn bufEnd counts)) i < 2 ^ tl) :
    ScanReaches (entryRead (tableIn bufEnd counts)) tl i := ⟨h.1, h.2⟩

/-- V-E1 for the tables; V-X5, V-X9, V-X10 and V-X7 for the errors. -/
theorem witness_ScanVerdict :
    (IsTable (entryRead fixture) 4 5 4 ∧ IsMaxCount (entryRead fixture) 4 20) ∧
    (ScanReaches (entryRead fixture) 5 3 ∧ 3 ≤ 3) ∧
    (ScanReaches (entryRead (tableIn 0x1010 [20, 0, 4, 4])) 5 1 ∧ entryRead (tableIn 0x1010 [20, 0, 4, 4]) 1 = 0) ∧
    (ScanReaches (entryRead (tableIn 0x1010 [20, -2, 4, 4])) 5 1 ∧ entryRead (tableIn 0x1010 [20, -2, 4, 4]) 1 < -1) ∧
    (ScanReaches (entryRead (tableIn 0x1010 [20, 4, 4, 5])) 5 3 ∧ ValidCount (entryRead (tableIn 0x1010 [20, 4, 4, 5]) 3) ∧
      2 ^ 5 < coverage (entryRead (tableIn 0x1010 [20, 4, 4, 5])) 4) :=
  ⟨⟨fixture_isTable, fixture_isMaxCount⟩, ⟨tableIn_reaches _ _ _ _ (by decide), by decide⟩,
    ⟨tableIn_reaches _ _ _ _ (by decide), by decide⟩, ⟨tableIn_reaches _ _ _ _ (by decide), by decide⟩,
    ⟨tableIn_reaches _ _ _ _ (by decide), by decide, by decide⟩⟩

/-- V-X6, V-X9, V-X7, and thirty-two sentinels (V-X12). -/
theorem witness_CountErrorsOfEncode :
    (ScanReaches (entryRead (tableIn 0x1010 [])) 5 0 ∧ (tableIn 0x1010 []).entryCount.toNat ≤ 0) ∧
    (ScanReaches (entryRead (tableIn 0x1010 [20, 0])) 5 1 ∧ 1 < (tableIn 0x1010 [20, 0]).entryCount.toNat ∧
      entryRead (tableIn 0x1010 [20, 0]) 1 = 0) ∧
    (ScanReaches (entryRead (tableIn 0x1010 [20, 4, 4, 5])) 5 3 ∧ 3 < (tableIn 0x1010 [20, 4, 4, 5]).entryCount.toNat ∧
      ValidCount (entryRead (tableIn 0x1010 [20, 4, 4, 5]) 3) ∧
      2 ^ 5 < coverage (entryRead (tableIn 0x1010 [20, 4, 4, 5])) 4) ∧
    (IsTable (entryRead (tableIn 0x1010 (List.replicate 32 (-1)))) (tableIn 0x1010 (List.replicate 32 (-1))).entryCount.toNat
      5 32 ∧ ∀ i < 32, entryRead (tableIn 0x1010 (List.replicate 32 (-1))) i ≤ 0) :=
  ⟨⟨tableIn_reaches _ _ _ _ (by decide), by decide⟩, ⟨tableIn_reaches _ _ _ _ (by decide), by decide, by decide⟩,
    ⟨tableIn_reaches _ _ _ _ (by decide), by decide, by decide, by decide⟩,
    ⟨by decide +kernel, by decide +kernel, by decide +kernel⟩, by decide +kernel⟩

theorem witness_PositivityFailsExactlyOnSentinelTables :
    scan (entryRead fixture) 4 5 = .ok (4, 20) ∧ (0 : Int) < 20 ∧
    scan (entryRead (tableIn 0x1010 (List.replicate 32 (-1)))) 32 5 = .ok (32, -1) ∧ (-1 : Int) ≤ 0 ∧
    (tableIn 0x1010 (List.replicate 32 (-1))).entryCount.toNat = 32 :=
  ⟨by decide +kernel, by decide, by decide +kernel, by decide, by decide⟩

theorem witness_ModeBoundaries : ∀ p ∈ [(5, 1), (5, 6), (5, 7), (5, 14), (5, 15), (5, 32), (8, 256)],
    5 ≤ p.1 ∧ p.1 ≤ 8 ∧ 1 ≤ p.2 ∧ p.2 ≤ 2 ^ p.1 := by decide

/-- V-S1's entry 1. -/
theorem witness_SentinelLowersDeficitByOneAndCodesAsZero :
    entryRead (tableIn 0x1010 [30, -1, -1]) 1 = -1 ∧ 1 < 3 ∧ 1 ≤ 2 ∧ 1 ≤ 1 := by decide

theorem witness_OnlyTheLastFieldCanBeOverwide :
    encodePlan 5 fixture = .ok fixturePlan ∧ fixturePlan[8]? = some (.add 8 3) ∧ 8 = 2 ^ 3 := ⟨fixture_plan, rfl, rfl⟩

theorem witness_OverflowModeNeverTakesTheFixedPath : 2 ≤ 2 := by decide

theorem witness_EncodeStreamLayout :
    IsTable (entryRead fixture) fixture.entryCount.toNat 5 4 ∧ IsMaxCount (entryRead fixture) 4 20 ∧ 5 ≤ 5 ∧ 5 ≤ 8 ∧ 1 ≤ 20 :=
  ⟨fixture_isTable, fixture_isMaxCount, by decide⟩

/-- V-E1 completes; V-X15 fails. -/
theorem witness_EncodeIsItsPlanPerformedOrNothing :
    encodePlan 5 fixture = .ok fixturePlan ∧ (∃ t, performOps .literal fixturePlan fixture = .ok t) ∧
    encodePlan 5 (tableIn 0x1005 [20, 4, 4, 4]) = .ok fixturePlan ∧
    performOps .literal fixturePlan (tableIn 0x1005 [20, 4, 4, 4]) = .error .bufferTooSmall :=
  ⟨fixture_plan, ⟨_, rfl⟩, rfl, rfl⟩

/-- The sufficient buffer of 41_ncount_encoder.md R147, B + 28. -/
theorem witness_EncodeCompletesOnTables :
    let s := tableIn 0x101C [20, 4, 4, 4]
    IsTable (entryRead s) s.entryCount.toNat 5 4 ∧ IsMaxCount (entryRead s) 4 20 ∧ 5 ≤ 5 ∧ 5 ≤ 8 ∧ 1 ≤ 20 ∧
    s.bw.fill.toNat + 3 + modeWidth (selectMode 5 20) + (entryField (entryRead s) 5 (selectMode 5 20) 0).2 ≤ 32 ∧
    s.bufBase.toNat ≤ s.bw.cursor.toNat ∧
    s.bw.cursor.toNat + (s.bw.fill.toNat + 5 + 2 ^ 5 * (5 + 1)) / 8 + 4 ≤ s.bufEnd.toNat :=
  ⟨fixture_isTable, fixture_isMaxCount, by decide, by decide, by decide, by decide, by decide, by decide⟩

/-- The trial run of the fixture writes at 0x1000, 0x1001, 0x1001 and 0x1002 (V-E1), so 0x1006 is outside all its words. -/
theorem witness_EncodeFrame :
    (∃ t, exec (.encode 5) fixture = .next t) ∧
    ∃ b ws, encodeTrial overwidePolicy 5 fixture = .ok (b, ws) ∧ ∀ p ∈ ws, 0x1006 < p.1.toNat ∨ p.1.toNat + 4 ≤ 0x1006 :=
  ⟨⟨_, rfl⟩, ⟨0x11, 4, 0x1002⟩, [(0x1000, 0x2A0), (0x1001, 0x22), (0x1001, 0x162), (0x1002, 0x11)], rfl, by simp⟩

/-- V-S3's starting FILL 23 and V-S2's 22. -/
theorem witness_EncodeOverflowsExactlyAtItsFirstFields :
    IsTable (entryRead fixture) fixture.entryCount.toNat 5 4 ∧ IsMaxCount (entryRead fixture) 4 20 ∧ 1 ≤ 20 ∧
    32 < 23 + (3 + modeWidth (selectMode 5 20) + (entryField (entryRead fixture) 5 (selectMode 5 20) 0).2) ∧
    22 + (3 + modeWidth (selectMode 5 20) + (entryField (entryRead fixture) 5 (selectMode 5 20) 0).2) ≤ 32 :=
  ⟨fixture_isTable, fixture_isMaxCount, by decide, by decide, by decide⟩

theorem witness_StrayBitAfterEncode :
    IsTable (entryRead fixture) fixture.entryCount.toNat 5 4 ∧ IsMaxCount (entryRead fixture) 4 20 ∧
    fixture.bw.StrayAtMost ∧ (∃ t, exec (.encode 5) fixture = .next t ∧ t.status.result = .ok) ∧
    0 < entryRead fixture (4 - 1) ∧ TakesTruncated (entryRead fixture) 5 (selectMode 5 20) (4 - 1) :=
  ⟨fixture_isTable, fixture_isMaxCount, by decide, ⟨_, rfl, by decide +kernel⟩, by decide, by decide⟩

/-- The other branch: a sentinel last (V-S1), and the bit dropped at position 32 (V-S6, from FILL 21). -/
theorem witness_StrayBitAfterEncode_no_stray_bit :
    let s := tableIn 0x1010 [30, -1, -1]
    let d := { tableIn 0x1010 [32] with bw := ⟨0, 21, 0x1000⟩ }
    (IsTable (entryRead s) s.entryCount.toNat 5 3 ∧ IsMaxCount (entryRead s) 3 30 ∧ s.bw.StrayAtMost ∧
      (∃ t, exec (.encode 5) s = .next t ∧ t.status.result = .ok) ∧ ¬ 0 < entryRead s (3 - 1)) ∧
    (IsTable (entryRead d) d.entryCount.toNat 5 1 ∧ IsMaxCount (entryRead d) 1 32 ∧ d.bw.StrayAtMost ∧
      (∃ t, exec (.encode 5) d = .next t ∧ t.status.result = .ok) ∧ 0 < entryRead d (1 - 1) ∧
      TakesTruncated (entryRead d) 5 (selectMode 5 32) (1 - 1) ∧
      d.bw.fill.toNat + 3 + modeWidth (selectMode 5 32) + (entryField (entryRead d) 5 (selectMode 5 32) 0).2 = 32) :=
  ⟨⟨⟨by decide, by decide, by decide⟩, ⟨⟨0, by decide, by decide⟩, by decide⟩, by decide, ⟨_, rfl, by decide +kernel⟩,
      by decide⟩,
    ⟨by decide, by decide, by decide⟩, ⟨⟨0, by decide, by decide⟩, by decide⟩, by decide, ⟨_, rfl, by decide +kernel⟩,
      by decide, by decide, by decide⟩

/-- V-X19: an entry past the stopping index is not read. -/
theorem witness_EncodeDependsOnNothingElse :
    let s1 := { tableIn 0x1010 [20, 4, 4, 4, 0] with status := ⟨.valueTooWide, true⟩ }
    let s2 := { tableIn 0x1010 [20, 4, 4, 4, 9] with arg := 7 }
    s1.bw = s2.bw ∧ s1.bufBase = s2.bufBase ∧ s1.bufEnd = s2.bufEnd ∧ s1.entryCount = s2.entryCount ∧
    (∀ i < s1.entryCount.toNat, ScanReaches (entryRead s1) 5 i → entryRead s1 i = entryRead s2 i) ∧
    (∃ t, encodeUnder .mask 5 s1 = .next t) ∧ ∃ t, encodeUnder .mask 5 s2 = .next t := by
  refine ⟨rfl, rfl, rfl, rfl, fun i hi hr => ?_, ⟨_, rfl⟩, _, rfl⟩
  have h4 : i ≠ 4 := by rintro rfl; exact absurd hr.deficit (by decide)
  have all : ∀ i < 5, i ≠ 4 →
      entryRead (tableIn 0x1010 [20, 4, 4, 4, 0]) i = entryRead (tableIn 0x1010 [20, 4, 4, 4, 9]) i := by decide
  exact all i hi h4

theorem witness_PoliciesDifferOnlyInTheStrayBit :
    (∃ t, encodeUnder .literal 5 fixture = .next t) ∧ ∃ t, encodeUnder .mask 5 fixture = .next t := ⟨⟨_, rfl⟩, _, rfl⟩

/-! ## Witnesses: the stream -/

theorem witness_InitStartsTheStream : ∃ t, exec .init (writing 0xFFFF 17 0x2345 0) = .next t := ⟨_, rfl⟩

/-- The empty stream at the buffer's start, and the three commands that extend it. -/
theorem witness_StreamToMemoryMapping :
    Carries 0x1000 [] fixture ∧ fixture.bw.Clean ∧
    (∃ t, exec (.encode 5) fixture = .next t ∧ t.status.result = .ok) ∧
    (∃ t, exec .flush fixture = .next t ∧ t.status.result = .ok) ∧
    ∃ t, exec (.addbits 6) fixture = .next t ∧ t.status.result = .ok :=
  ⟨⟨by decide, by decide, by decide, by decide, by decide⟩, by decide, ⟨_, rfl, by decide +kernel⟩, ⟨_, rfl, by decide⟩, _, rfl,
    by decide⟩

/-- V-F7's stream of 11 bits, with its bytes in memory. -/
theorem witness_EndOfRunObservation :
    ∃ t, exec .flush (writing 0x736 11 0x2000 0) = .next t ∧ Carries 0x2000 (fieldBits 0x736 11) t ∧ HeldInMemory t :=
  ⟨_, rfl, ⟨by decide, by decide, by decide, by decide, by decide⟩, by unfold HeldInMemory; decide⟩

end Sys2Proof.Tests
end

/-! Flushes outside the buffer's window, and what reset leaves. -/

namespace Sys2Proof.Machine

/-! ## Flushes outside the window -/

/-- FLUSH where its four bytes do not lie in the buffer (20_memory.md R56; 40_bitwriter.md R107). -/
theorem exec_flush_of_not_fits {s : State} (h : ¬ FlushFits s.bufBase s.bufEnd s.bw.cursor) :
    exec .flush s = .next (s.setStatus ⟨.bufferTooSmall, true⟩) := by
  show execFlush s = _
  rw [execFlush, if_pos h, raiseError_eq (by decide)]

/-- The first flush of a trial run is checked at the CURSOR the run starts with, since adds leave CURSOR alone. -/
theorem runOps_first_flush_fits {policy : OverwidePolicy} {lo hi : Word} {ops : List BwOp} {b : BitWriter}
    {r : BitWriter × List (Word × Word)} (hm : .flush ∈ ops) (h : runOps policy lo hi ops b = .ok r) :
    FlushFits lo hi b.cursor := by
  induction ops generalizing b with
  | nil => cases hm
  | cons op ops ih =>
    cases op with
    | add v w =>
      have hfits := ih (by simpa using hm) (runOps_add_ok h).2
      exact hfits
    | flush => exact (runOps_flush_ok h).1

/-- Every plan holds a flush: it ends with the last entry's (41_ncount_encoder.md R137). -/
theorem flush_mem_encodePlan {tl : Nat} {s : State} {ops : List BwOp} (h : encodePlan tl s = .ok ops) :
    .flush ∈ ops := by
  obtain ⟨front, v, w, rfl, _⟩ := encodePlan_split h
  simp

/-- With CURSOR outside the window no flush happens, whether FLUSH's own or the first of an ENCODE
(20_memory.md R56). -/
theorem noFlushSucceeds_of_not_fits {s : State} (h : ¬ FlushFits s.bufBase s.bufEnd s.bw.cursor) :
    NoFlushSucceeds s := by
  refine ⟨exec_flush_of_not_fits h, fun tl => ?_⟩
  obtain ⟨t, ht, hends⟩ := exec_ends (.encode tl) s
  cases hends with
  | error code _ hc he => exact ⟨code, hc, he ▸ ht⟩
  | encode _ ops b ws _ hp hr => exact absurd (runOps_first_flush_fits (flush_mem_encodePlan hp) hr) h
  | init hi | addbits _ hi | flush hi => cases hi

/-- A buffer that ends at address 0 has no room for four bytes, wherever it begins. -/
theorem noFlushSucceeds_of_bufEnd_zero {s : State} (h : s.bufEnd = 0) : NoFlushSucceeds s :=
  noFlushSucceeds_of_not_fits fun ⟨_, hroom⟩ => by simp [h] at hroom

/-! ## Reset -/

/-- A step whose access is the reset input (70_reset_and_hazards.md R200). -/
theorem step_reset {s : State} {rest : List HostAccess} (h : s.pending = .reset :: rest) :
    step s = .next (resetRegisters (s.takeAccess rest)) := by
  rw [step, h]
  rfl

/-- INIT finds every register it writes already at its value: CURSOR at BUF_BASE, both 0 (10_state.md R36). -/
theorem exec_init_resetRegisters (s : State) : exec .init (resetRegisters s) = .next (resetRegisters s) := rfl

/-- Settles O18: the reset input and State.reset give each register its reset value, INIT finds nothing to change,
and a BUF_END of 0 leaves no room for a flush. -/
theorem resetZeroesEveryRegister : Obligations.ResetZeroesEveryRegister := by
  refine ⟨fun s rest h => ⟨_, step_reset h, ?_⟩, by simp [State.reset]⟩
  have hflush (u : State) (hu : u.bufEnd = (resetRegisters (s.takeAccess rest)).bufEnd) : NoFlushSucceeds u :=
    noFlushSucceeds_of_bufEnd_zero hu
  have hinit := exec_init_resetRegisters (s.takeAccess rest)
  exact ⟨rfl, rfl, rfl, rfl, rfl, rfl, rfl, rfl, rfl, rfl, hinit, hflush⟩

end Sys2Proof.Machine

/-! Output memory's four-byte write, and host accesses to the register space. -/

namespace Sys2Proof.Machine

/-! ## The four-byte write -/

/-- Settles O27: the bytes and the frame are the write's readback, and a write that fits below BUF_END, itself a
32-bit address, cannot pass the end of the address space (20_memory.md R53, R56). -/
theorem memWriteStoresFourLittleEndianBytes : Obligations.MemWriteStoresFourLittleEndianBytes := by
  refine ⟨fun m addr v => ⟨fun j hj => ?_, fun a ha => ?_, fun hm haddr => memWrite4_wf hm haddr v⟩,
    fun bufBase bufEnd cursor ⟨_, hroom⟩ j hj => ?_⟩
  · rw [readByte_memWrite4, if_pos (by omega), Nat.add_sub_cancel_left, byteOf]
  · rw [readByte_memWrite4, if_neg (by omega)]
  · have hend : bufEnd.toNat < 2 ^ 32 := bufEnd.isLt
    omega

/-! ## Steps that access the register space -/

section RegisterSpace

variable {s : State} {rest : List HostAccess} {bytes offset : Nat} {v : Word}

/-- A step with an access to come performs the oldest one. -/
theorem step_of_pending {a : HostAccess} (h : s.pending = a :: rest) :
    step s = performAccess a (s.takeAccess rest) := by
  rw [step, h]

theorem step_regWrite (h : s.pending = .regWrite bytes offset v :: rest) (ho : offset < registerSpaceSize)
    (hi : InInterface bytes offset) : step s = writeOffset offset v (s.takeAccess rest) := by
  rw [step_of_pending h, performAccess, if_neg (Nat.not_le.mpr ho), if_neg (not_not.mpr hi)]

theorem step_regRead (h : s.pending = .regRead bytes offset :: rest) (ho : offset < registerSpaceSize)
    (hi : InInterface bytes offset) :
    step s = .next ((s.takeAccess rest).respond (.reg offset (readOffset offset (s.takeAccess rest)))) := by
  rw [step_of_pending h, performAccess, if_neg (Nat.not_le.mpr ho), if_neg (not_not.mpr hi)]

theorem step_regWrite_outsideInterface (h : s.pending = .regWrite bytes offset v :: rest)
    (ho : offset < registerSpaceSize) (hi : ¬ InInterface bytes offset) :
    step s = .refused (.outsideInterface bytes offset) := by
  rw [step_of_pending h, performAccess, if_neg (Nat.not_le.mpr ho), if_pos hi]

theorem step_regRead_outsideInterface (h : s.pending = .regRead bytes offset :: rest)
    (ho : offset < registerSpaceSize) (hi : ¬ InInterface bytes offset) :
    step s = .refused (.outsideInterface bytes offset) := by
  rw [step_of_pending h, performAccess, if_neg (Nat.not_le.mpr ho), if_pos hi]

/-! ## Mapped offsets -/

theorem registerAt_registerOffset (r : Register) : registerAt (registerOffset r) = some r := by
  cases r <;> rfl

theorem registerOffset_lt (r : Register) : registerOffset r < registerSpaceSize := by
  cases r <;> decide

theorem registerOffset_inInterface (r : Register) : InInterface 4 (registerOffset r) := by
  cases r <;> decide

/-- Taking an access off the queue changes no register. -/
theorem readRegister_takeAccess (r : Register) : readRegister r (s.takeAccess rest) = readRegister r s := by
  cases r <;> rfl

theorem step_regWrite_register (r : Register) (h : s.pending = .regWrite 4 (registerOffset r) v :: rest) :
    step s = writeOffset (registerOffset r) v (s.takeAccess rest) :=
  step_regWrite h (registerOffset_lt r) (registerOffset_inInterface r)

theorem step_regRead_register (r : Register) (h : s.pending = .regRead 4 (registerOffset r) :: rest) :
    step s = .next ((s.takeAccess rest).respond (.reg (registerOffset r) (readRegister r s))) := by
  rw [step_regRead h (registerOffset_lt r) (registerOffset_inInterface r), readOffset, registerAt_registerOffset]
  simp only [readRegister_takeAccess]

/-- The registers whose writes are ignored (20_memory.md R62). -/
theorem writeOffset_readOnly {r : Register} (h : r ∈ [Register.status, .cursor, .acc, .fill]) :
    writeOffset (registerOffset r) v s = .next s := by
  rw [writeOffset, registerAt_registerOffset]
  cases r with
  | status | cursor | acc | fill => rfl
  | cmd | arg | bufBase | bufEnd | entryCount => simp at h

/-! ## Unmapped offsets -/

/-- FILL at 0x20 is the last register. -/
theorem registerAt_of_ge (h : 0x24 ≤ offset) : registerAt offset = none := by
  obtain ⟨k, rfl⟩ := Nat.exists_eq_add_of_le' h
  rfl

theorem readOffset_of_ge (h : 0x24 ≤ offset) : readOffset offset s = 0 := by
  rw [readOffset, registerAt_of_ge h]

theorem writeOffset_of_ge (h : 0x24 ≤ offset) : writeOffset offset v s = .next s := by
  rw [writeOffset, registerAt_of_ge h]

/-! ## A write in the interface never stops the machine -/

theorem runCommand_next (w : Word) (s : State) : ∃ t, runCommand w s = .next t := by
  unfold runCommand
  split
  · next i _ =>
    obtain ⟨t, ht, _⟩ := exec_ends i s
    exact ⟨t, ht⟩
  · exact ⟨_, rfl⟩

/-- Only CMD's write does more than store or ignore. -/
theorem writeOffset_next (offset : Nat) (v : Word) (s : State) : ∃ t, writeOffset offset v s = .next t := by
  unfold writeOffset
  split
  case h_1 => exact runCommand_next v s
  all_goals exact ⟨_, rfl⟩

end RegisterSpace

/-! ## The register space's obligations -/

/-- Settles O9: each offset of the statement is a register's, a write is that register's arm of `writeOffset`, and
taking the access off the queue leaves the value a read returns alone. -/
theorem registerAccessSemantics : Obligations.RegisterAccessSemantics := by
  intro s rest v
  refine ⟨step_regWrite_register .cmd, step_regWrite_register .arg, step_regWrite_register .bufBase,
    step_regWrite_register .bufEnd, step_regWrite_register .entryCount, fun offset hoffset h => ?_, fun p hp h => ?_⟩
  · obtain ⟨r, hr, rfl⟩ : ∃ r ∈ [Register.status, .cursor, .acc, .fill], registerOffset r = offset :=
      List.mem_map.mp hoffset
    rw [step_regWrite_register r h, writeOffset_readOnly hr]
  · obtain ⟨r, _, rfl⟩ : ∃ r ∈ [Register.cmd, .status, .arg, .bufBase, .bufEnd, .entryCount, .cursor, .acc, .fill],
        (registerOffset r, readRegister r s) = p := List.mem_map.mp hp
    exact step_regRead_register r h

/-- Settles O10: no register stands at or above 0x24, so reads give 0 and writes are ignored (20_memory.md R63). -/
theorem unmappedOffsetsReadZeroAndIgnoreWrites : Obligations.UnmappedOffsetsReadZeroAndIgnoreWrites := by
  intro s rest offset hlo hhi halign
  have hspace : offset < registerSpaceSize := Nat.lt_of_le_of_lt hhi (by decide)
  refine ⟨fun h => ?_, fun v h => ?_⟩
  · rw [step_regRead h hspace ⟨rfl, halign⟩, readOffset_of_ge hlo]
  · rw [step_regWrite h hspace ⟨rfl, halign⟩, writeOffset_of_ge hlo]

/-- Settles O11: the check on size and alignment decides, since every write inside the interface ends in a next
state, a command's included (20_memory.md R61; 70_reset_and_hazards.md R209). -/
theorem onlyAlignedWordAccessesAreInTheInterface : Obligations.OnlyAlignedWordAccessesAreInTheInterface := by
  intro s rest bytes offset v hspace
  refine ⟨fun hout => ⟨fun h => ?_, fun h => ?_⟩, fun hin => ⟨fun h => ?_, fun h => ?_⟩⟩
  · exact step_regWrite_outsideInterface h hspace hout
  · exact step_regRead_outsideInterface h hspace hout
  · obtain ⟨t, ht⟩ := writeOffset_next offset v (s.takeAccess rest)
    exact ⟨t, (step_regWrite h hspace hin).trans ht⟩
  · exact ⟨_, step_regRead h hspace hin⟩

end Sys2Proof.Machine

/-! The decoder in numbers: which words select which command, and what a word that selects none does. -/

namespace Sys2Proof.Machine

/-! ## The fields of a word as numbers -/

theorem opField_toNat (w : Word) : (opField w).toNat = w.toNat % 16 := by
  simp [opField]

theorem widthField_toNat (w : Word) : (widthField w).toNat = w.toNat / 2 ^ 4 % 2 ^ 6 := by
  simp [widthField, Nat.shiftRight_eq_div_pow]

theorem tableLogField_toNat (w : Word) : (tableLogField w).toNat = w.toNat / 2 ^ 4 % 2 ^ 4 := by
  simp [tableLogField, Nat.shiftRight_eq_div_pow]

/-- The bits from `start` up are 0 exactly when the word is below `2 ^ start`. -/
theorem extractLsb'_top_eq_zero_iff {w : Word} {start len : Nat} (h : start + len = 32) :
    w.extractLsb' start len = 0 ↔ w.toNat / 2 ^ start = 0 := by
  have hlt : w.toNat / 2 ^ start < 2 ^ len :=
    Nat.div_lt_of_lt_mul (by rw [← Nat.pow_add, h]; exact w.isLt)
  rw [← BitVec.toNat_inj, BitVec.extractLsb'_toNat, Nat.shiftRight_eq_div_pow, Nat.mod_eq_of_lt hlt]
  rfl

/-! ## The decoder -/

/-- The word has the opcode and the operand of the command, and its reserved bits are 0 (30_encoding.md R81 to R83). -/
def Selects (w : Word) : Instr → Prop
  | .init => w.toNat % 16 = 1 ∧ w.toNat / 2 ^ 4 = 0
  | .addbits width => (w.toNat % 16 = 2 ∧ w.toNat / 2 ^ 10 = 0) ∧ width = w.toNat / 2 ^ 4 % 2 ^ 6
  | .flush => w.toNat % 16 = 3 ∧ w.toNat / 2 ^ 4 = 0
  | .encode tl => (w.toNat % 16 = 4 ∧ w.toNat / 2 ^ 8 = 0) ∧ tl = w.toNat / 2 ^ 4 % 2 ^ 4

theorem checkReserved_eq_ok_iff {w : Word} {start len : Nat} (hlen : start + len = 32) {i j : Instr} :
    checkReserved w (w.extractLsb' start len == 0) i = .ok j ↔ w.toNat / 2 ^ start = 0 ∧ i = j := by
  rw [← extractLsb'_top_eq_zero_iff hlen, checkReserved]
  split <;> simp_all

theorem selects_of_decode {w : Word} {i : Instr} (h : decode w = .ok i) : Selects w i := by
  unfold decode at h
  simp only [opField_toNat, widthField_toNat, tableLogField_toNat] at h
  split at h
  case h_5 => cases h
  all_goals
    next hop =>
      obtain ⟨hreserved, rfl⟩ := (checkReserved_eq_ok_iff rfl).mp h
      simpa only [Selects, and_true] using And.intro hop hreserved

theorem decode_of_selects {w : Word} {i : Instr} (h : Selects w i) : decode w = .ok i := by
  unfold decode
  simp only [opField_toNat, widthField_toNat, tableLogField_toNat]
  cases i with
  | init | flush =>
    obtain ⟨hop, hreserved⟩ := h
    rw [hop]
    exact (checkReserved_eq_ok_iff rfl).mpr ⟨hreserved, rfl⟩
  | addbits | encode =>
    obtain ⟨⟨hop, hreserved⟩, rfl⟩ := h
    rw [hop]
    exact (checkReserved_eq_ok_iff rfl).mpr ⟨hreserved, rfl⟩

/-- The decoder of 30_encoding.md R85, said once: later proofs compare numbers. -/
theorem decode_eq_ok_iff {w : Word} {i : Instr} : decode w = .ok i ↔ Selects w i :=
  ⟨selects_of_decode, decode_of_selects⟩

/-! ## Masks and matches -/

/-- A row of the opcode map whose operand field is the `k` bits above OP: its mask keeps OP and the reserved bits
above the field, so the match says what they are (30_encoding.md R84). -/
theorem and_mask_eq_iff (w : Word) {mask op : Word} {k : Nat} (hk : k ≤ 28) (hop : op.toNat < 2 ^ 4)
    (hlow : mask.toNat % 2 ^ 4 = 2 ^ 4 - 1) (hfield : mask.toNat / 2 ^ 4 % 2 ^ k = 0)
    (hhigh : mask.toNat / 2 ^ (4 + k) = 2 ^ (28 - k) - 1) :
    w &&& mask = op ↔ w.toNat % 16 = op.toNat ∧ w.toNat / 2 ^ (4 + k) = 0 := by
  have hxlow : (w &&& mask).toNat % 2 ^ 4 = w.toNat % 16 := by
    rw [BitVec.toNat_and, Nat.and_mod_two_pow, hlow, Nat.and_two_pow_sub_one_eq_mod, Nat.mod_mod]
  have hxfield : (w &&& mask).toNat / 2 ^ 4 % 2 ^ k = 0 := by
    rw [BitVec.toNat_and, Nat.and_div_two_pow, Nat.and_mod_two_pow, hfield, Nat.and_zero]
  have hwhigh : w.toNat / 2 ^ (4 + k) < 2 ^ (28 - k) :=
    Nat.div_lt_of_lt_mul (by rw [← Nat.pow_add, show 4 + k + (28 - k) = 32 by omega]; exact w.isLt)
  have hxhigh : (w &&& mask).toNat / 2 ^ 4 / 2 ^ k = w.toNat / 2 ^ (4 + k) := by
    rw [Nat.div_div_eq_div_mul, ← Nat.pow_add, BitVec.toNat_and, Nat.and_div_two_pow, hhigh,
      Nat.and_two_pow_sub_one_eq_mod, Nat.mod_eq_of_lt hwhigh]
  rw [← BitVec.toNat_inj]
  constructor
  · intro h
    rw [h, Nat.mod_eq_of_lt hop] at hxlow
    rw [h, Nat.div_eq_of_lt hop, Nat.zero_div] at hxhigh
    exact ⟨hxlow.symm, hxhigh.symm⟩
  · rintro ⟨hlow', hhigh'⟩
    have hupper : (w &&& mask).toNat / 2 ^ 4 = 0 := by
      rw [← Nat.div_add_mod ((w &&& mask).toNat / 2 ^ 4) (2 ^ k), hxfield, hxhigh, hhigh', Nat.mul_zero]
    omega

/-! ## Words of two parts -/

/-- The word of an opcode with an operand above it, as a number (30_encoding.md R88). -/
theorem toNat_opcode_or_operand {op operand : Nat} (hop : op < 16) (ho : operand < 2 ^ 28) :
    (BitVec.ofNat 32 op ||| BitVec.ofNat 32 operand <<< 4).toNat = 16 * operand + op := by
  rw [BitVec.toNat_or, BitVec.toNat_shiftLeft, BitVec.toNat_ofNat, BitVec.toNat_ofNat,
    Nat.mod_eq_of_lt (a := op) (by omega), Nat.mod_eq_of_lt (a := operand) (by omega), Nat.shiftLeft_eq,
    Nat.mod_eq_of_lt (by omega), ← Nat.shiftLeft_eq, Nat.or_comm, ← Nat.shiftLeft_add_eq_or_of_lt hop,
    Nat.shiftLeft_eq, Nat.mul_comm]

theorem decode_addbits_word {width : Nat} (h : width < 64) :
    decode (0x00000002#32 ||| BitVec.ofNat 32 width <<< 4) = .ok (.addbits width) := by
  have hw := toNat_opcode_or_operand (op := 2) (operand := width) (by decide) (by omega)
  refine decode_of_selects ⟨⟨?_, ?_⟩, ?_⟩ <;> rw [hw] <;> omega

theorem decode_encode_word {tl : Nat} (h : tl < 16) :
    decode (0x00000004#32 ||| BitVec.ofNat 32 tl <<< 4) = .ok (.encode tl) := by
  have hw := toNat_opcode_or_operand (op := 4) (operand := tl) (by decide) (by omega)
  refine decode_of_selects ⟨⟨?_, ?_⟩, ?_⟩ <;> rw [hw] <;> omega

/-! ## A word that selects no command -/

theorem runCommand_illegal {w : Word} (h : ∀ i, decode w ≠ .ok i) (s : State) :
    runCommand w s = .next (s.setStatus ⟨.illegalCommand, true⟩) := by
  rw [runCommand]
  split
  · next i hi => exact absurd hi (h i)
  · exact raiseError_eq (by decide) s

/-- The step of such a word's CMD write (30_encoding.md R86; 60_exceptions.md R171). -/
theorem step_cmdWrite_illegal {w : Word} (h : ∀ i, decode w ≠ .ok i) {s : State} {rest : List HostAccess}
    (hs : s.pending = cmdWrite w :: rest) :
    step s = .next ((s.takeAccess rest).setStatus ⟨.illegalCommand, true⟩) :=
  (step_regWrite_register .cmd hs).trans (runCommand_illegal h _)

/-! ## Operands the commands reject -/

/-- ADDBITS of more bits than ACC has room for, checked before the value (40_bitwriter.md R106). -/
theorem exec_addbits_of_not_fits {width : Nat} {s : State} (h : ¬ AddFits s.bw width) :
    exec (.addbits width) s = .next (s.setStatus ⟨.registerOverflow, true⟩) := by
  show execAddbits width s = _
  rw [execAddbits, if_pos h, raiseError_eq (by decide)]

/-- ENCODE checks its operand before anything else (41_ncount_encoder.md R131). -/
theorem exec_encode_of_tableLog_out_of_range {tl : Nat} (h : tl < 5 ∨ 8 < tl) (s : State) :
    exec (.encode tl) s = .next (s.setStatus ⟨.invalidTableLog, true⟩) := by
  have htrial : encodeTrial overwidePolicy tl s = .error .invalidTableLog := by
    rw [encodeTrial, encodePlan, if_pos h]
  show encodeUnder overwidePolicy tl s = _
  rw [encodeUnder, htrial]
  exact raiseError_eq (by decide) s

/-! ## The encoding's obligations -/

/-- Settles O1: each row's mask and match say of OP and the reserved bits what the decoder asks of them. -/
theorem opcodeMapSelectsTheCommand : Obligations.OpcodeMapSelectsTheCommand := by
  intro w
  have hinit : w &&& 0xFFFFFFFF#32 = 0x00000001#32 ↔ _ :=
    and_mask_eq_iff w (k := 0) (by decide) (by decide) rfl rfl rfl
  have haddbits : w &&& 0xFFFFFC0F#32 = 0x00000002#32 ↔ _ :=
    and_mask_eq_iff w (k := 6) (by decide) (by decide) rfl rfl rfl
  have hflush : w &&& 0xFFFFFFFF#32 = 0x00000003#32 ↔ _ :=
    and_mask_eq_iff w (k := 0) (by decide) (by decide) rfl rfl rfl
  have hencode : w &&& 0xFFFFFF0F#32 = 0x00000004#32 ↔ _ :=
    and_mask_eq_iff w (k := 4) (by decide) (by decide) rfl rfl rfl
  exact ⟨decode_eq_ok_iff.trans hinit.symm, fun _ => decode_eq_ok_iff.trans (and_congr_left' haddbits.symm),
    decode_eq_ok_iff.trans hflush.symm, fun _ => decode_eq_ok_iff.trans (and_congr_left' hencode.symm),
    fun hillegal _ _ hs => step_cmdWrite_illegal hillegal hs⟩

/-- Settles O2: an illegal word selects none of the four commands, and any other has one of their opcodes with its
reserved bits 0. -/
theorem illegalWordsRaiseIllegalCommand : Obligations.IllegalWordsRaiseIllegalCommand := by
  intro w
  refine ⟨fun h s rest hs => step_cmdWrite_illegal (fun i hi => ?_) hs, fun h => ?_⟩
  · have hsel := selects_of_decode hi
    cases i with
    | init | addbits | flush | encode =>
      simp only [Selects] at hsel
      omega
  · have hlegal : Selects w .init ∨ Selects w (.addbits (w.toNat / 2 ^ 4 % 2 ^ 6)) ∨ Selects w .flush ∨
        Selects w (.encode (w.toNat / 2 ^ 4 % 2 ^ 4)) := by
      simp only [Selects, and_true]
      omega
    rcases hlegal with hi | hi | hi | hi <;> exact ⟨_, decode_of_selects hi⟩

/-- Settles O7: W above 32 passes ACC's 32 bits whatever FILL holds, and ENCODE's first check is on TL
(30_encoding.md R87). -/
theorem rejectedOperandsAreLegalEncodings : Obligations.RejectedOperandsAreLegalEncodings := by
  refine ⟨fun width hlo hhi => ⟨decode_addbits_word (by omega), fun s => exec_addbits_of_not_fits fun hfits => ?_⟩,
    fun tl hhi hout => ⟨decode_encode_word (by omega), exec_encode_of_tableLog_out_of_range hout⟩⟩
  have hroom : s.bw.fill.toNat + width ≤ 32 := hfits
  omega

end Sys2Proof.Machine

/-! The commands INIT, ADDBITS and FLUSH: the state each completes in, as numbers. -/

namespace Sys2Proof.Machine

/-! ## The commands that complete -/

/-- INIT has no check (40_bitwriter.md R101). -/
theorem exec_init (s : State) : exec .init s = .next ((s.setBw ⟨0, 0, s.bufBase⟩).setStatus ⟨.ok, false⟩) := rfl

/-- ADDBITS whose bits fit ACC, with a value wider than its field (40_bitwriter.md R106). -/
theorem exec_addbits_of_too_wide {width : Nat} {s : State} (hf : AddFits s.bw width) (hv : 2 ^ width ≤ s.arg.toNat) :
    exec (.addbits width) s = .next (s.setStatus ⟨.valueTooWide, true⟩) := by
  show execAddbits width s = _
  rw [execAddbits, valueOperand, if_neg (not_not.mpr hf), if_pos hv, raiseError_eq (by decide)]

/-- ADDBITS past both its checks adds ARG's value (40_bitwriter.md R104, R106). -/
theorem exec_addbits_of_fits {width : Nat} {s : State} (hf : AddFits s.bw width) (hv : s.arg.toNat < 2 ^ width) :
    exec (.addbits width) s = .next ((s.setBw (bwAdd s.bw s.arg.toNat width)).setStatus ⟨.ok, s.status.sticky⟩) := by
  show execAddbits width s = _
  rw [execAddbits, valueOperand, if_neg (not_not.mpr hf), if_neg (Nat.not_le.mpr hv), complete_eq]
  rfl

/-- FLUSH past its check stores ACC's four bytes at CURSOR and commits the whole ones (40_bitwriter.md R105, R107). -/
theorem exec_flush_of_fits {s : State} (h : FlushFits s.bufBase s.bufEnd s.bw.cursor) :
    exec .flush s = .next (((s.setMem (memWrite4 s.mem s.bw.cursor.toNat s.bw.acc)).setBw (bwFlush s.bw)).setStatus
      ⟨.ok, s.status.sticky⟩) := by
  show execFlush s = _
  rw [execFlush, if_neg (not_not.mpr h), complete_eq]
  rfl

/-! ## ACC and its bytes as numbers -/

/-- A value that fits its field, in a field that fits ACC, loses no bit to the shift (40_bitwriter.md R104). -/
theorem bwAdd_acc_toNat {b : BitWriter} {v width : Nat} (hf : AddFits b width) (hv : v < 2 ^ width) :
    (bwAdd b v width).acc.toNat = b.acc.toNat ||| v * 2 ^ b.fill.toNat := by
  have hlt : v * 2 ^ b.fill.toNat < 2 ^ 32 := calc
    v * 2 ^ b.fill.toNat < 2 ^ width * 2 ^ b.fill.toNat := Nat.mul_lt_mul_of_pos_right hv (Nat.two_pow_pos _)
    _ = 2 ^ (b.fill.toNat + width) := by rw [← Nat.pow_add, Nat.add_comm]
    _ ≤ 2 ^ 32 := Nat.pow_le_pow_right Nat.two_pos hf
  rw [bwAdd_acc, BitVec.toNat_or, BitVec.toNat_ofNat, Nat.shiftLeft_eq, Nat.mod_eq_of_lt hlt]

/-- Byte `j` of a word (20_memory.md R52). -/
theorem byteOf_toNat (v : Word) (j : Nat) : (byteOf v j).toNat = v.toNat / 2 ^ (8 * j) % 2 ^ 8 := by
  rw [byteOf, BitVec.extractLsb'_toNat, Nat.shiftRight_eq_div_pow]

/-- No CURSOR has room for four bytes in a buffer that ends at or below its start (20_memory.md R56). -/
theorem not_flushFits_of_bufEnd_le {bufBase bufEnd : Word} (h : bufEnd.toNat ≤ bufBase.toNat) (cursor : Word) :
    ¬ FlushFits bufBase bufEnd cursor := by
  rintro ⟨hlo, hhi⟩
  omega

/-! ## The BitWriter commands' obligations -/

/-- Settles O24: INIT has one case, and a buffer that ends at or below its start has no room for a flush, wherever
CURSOR is. -/
theorem initEffect : Obligations.InitEffect := by
  refine ⟨decode_of_selects ⟨rfl, rfl⟩, fun s =>
    ⟨_, exec_init s, rfl, rfl, rfl, rfl, rfl, fun hend u hbase hbufEnd => ?_⟩⟩
  have hu : u.bufEnd.toNat ≤ u.bufBase.toNat := by rw [hbase, hbufEnd]; exact hend
  exact noFlushSucceeds_of_not_fits (not_flushFits_of_bufEnd_le hu _)

/-- Settles O25: the two checks in their order, then the add, which is exact because the value fits its field and the
field fits ACC. -/
theorem addbitsEffect : Obligations.AddbitsEffect := by
  intro width
  refine ⟨decode_addbits_word, fun s => ⟨fun hover => ?_, exec_addbits_of_too_wide, fun hf hv => ?_⟩⟩
  · exact exec_addbits_of_not_fits (Nat.not_le.mpr hover)
  · exact ⟨_, exec_addbits_of_fits hf hv, bwAdd_acc_toNat hf hv, bwAdd_fill hf _, bwAdd_cursor _ _ _⟩

/-- Settles O26: the window check decides the case; the commit is the flush of the BitWriter, and the bytes and the
frame are the readback of the four-byte write. -/
theorem flushEffect : Obligations.FlushEffect := by
  refine ⟨decode_of_selects ⟨rfl, rfl⟩, fun s => ⟨fun hout => ?_, fun hlo hhi hfill => ?_⟩⟩
  · exact exec_flush_of_not_fits fun ⟨hlo, hhi⟩ => by omega
  · have hfits : FlushFits s.bufBase s.bufEnd s.bw.cursor := ⟨hlo, hhi⟩
    refine ⟨_, _, exec_flush_of_fits hfits, bwFlush_cursor hfill hfits, bwFlush_fill _, bwFlush_acc_toNat _,
      fun j hj => ?_, fun a ha => ?_⟩
    · rw [readByte_memWrite4, if_pos (by omega), Nat.add_sub_cancel_left, Option.map_some, byteOf_toNat]
    · rw [readByte_memWrite4, if_neg (by omega)]

end Sys2Proof.Machine

/-! ENCODE's verdict: the scan of any entry sequence, the positivity check, and the trial run against the machine. -/

namespace Sys2Proof.Machine

/-! ## One turn of the scan's loop -/

section ScanTurn
variable {entry : Nat → Int} {limit fuel i deficit : Nat} {m : Int}

/-- The loop ends well as soon as the deficit is used up (41_ncount_encoder.md R132). -/
theorem scanFrom_of_deficit_zero : scanFrom entry limit fuel i 0 m = .ok (i, m) := by
  cases fuel with
  | zero => rfl
  | succ fuel => rw [scanFrom, if_pos rfl]

theorem scanFrom_of_limit_le (hd : 0 < deficit) (hi : limit ≤ i) :
    scanFrom entry limit (fuel + 1) i deficit m = .error .coverageMismatch := by
  rw [scanFrom, if_neg (Nat.ne_of_gt hd), if_pos hi]

theorem scanFrom_of_invalid (hd : 0 < deficit) (hi : i < limit) (hv : entry i = 0 ∨ entry i < -1) :
    scanFrom entry limit (fuel + 1) i deficit m = .error .invalidCount := by
  rw [scanFrom, if_neg (Nat.ne_of_gt hd), if_neg (Nat.not_le.mpr hi), if_pos hv]

theorem scanFrom_of_overshoot (hd : 0 < deficit) (hi : i < limit) (hv : ValidCount (entry i))
    (ho : deficit < (entry i).natAbs) : scanFrom entry limit (fuel + 1) i deficit m = .error .coverageMismatch := by
  rw [scanFrom, if_neg (Nat.ne_of_gt hd), if_neg (Nat.not_le.mpr hi), if_neg ((validCount_iff _).mp hv), if_pos ho]

end ScanTurn

/-! ## How far a scan gets -/

section ScanReach
variable {entry entry' : Nat → Int} {limit tl i j n : Nat} {m : Int}

theorem ScanReaches.of_le (h : ScanReaches entry tl i) (hji : j ≤ i) : ScanReaches entry tl j :=
  ⟨fun k hk => h.valid k (hk.trans_le hji), (coverage_mono entry hji).trans_lt h.deficit⟩

/-- A scan whose first `i` entries are valid and do not overshoot comes to index `i`, with the deficit they leave and
fuel for it. -/
theorem scan_eq_scanFrom (hi : i ≤ limit) (hv : ∀ j < i, ValidCount (entry j)) (hc : coverage entry i ≤ 2 ^ tl) :
    ∃ fuel m, 2 ^ tl - coverage entry i ≤ fuel ∧
      scan entry limit tl = scanFrom entry limit fuel i (2 ^ tl - coverage entry i) m := by
  induction i with
  | zero => exact ⟨2 ^ tl, 0, le_rfl, rfl⟩
  | succ i ih =>
    have hvi := hv i (Nat.lt_succ_self i)
    have hpos := natAbs_pos_of_valid hvi
    rw [coverage_succ] at hc
    obtain ⟨fuel, m, hfuel, hscan⟩ := ih (by omega) (fun j hj => hv j (by omega)) (by omega)
    obtain ⟨fuel, rfl⟩ : ∃ k, fuel = k + 1 := ⟨fuel - 1, by omega⟩
    rw [scanFrom_step (by omega) hi hvi (by omega), Nat.sub_sub, ← coverage_succ] at hscan
    exact ⟨fuel, _, by rw [coverage_succ]; omega, hscan⟩

/-- Where no entry before `i` ends the scan, its loop takes a turn at entry `i`. -/
theorem ScanReaches.scan_eq_turn (h : ScanReaches entry tl i) (hi : i ≤ limit) :
    ∃ fuel m, scan entry limit tl = scanFrom entry limit (fuel + 1) i (2 ^ tl - coverage entry i) m := by
  have hdeficit := h.deficit
  obtain ⟨fuel, m, hfuel, hscan⟩ := scan_eq_scanFrom hi h.valid hdeficit.le
  obtain ⟨fuel, rfl⟩ : ∃ k, fuel = k + 1 := ⟨fuel - 1, by omega⟩
  exact ⟨fuel, m, hscan⟩

/-! ## What a scan ends with -/

/-- Entries that run out (41_ncount_encoder.md R132): the scan ends at the first index past the declared length. -/
theorem ScanReaches.scan_of_limit_le (h : ScanReaches entry tl i) (hi : limit ≤ i) :
    scan entry limit tl = .error .coverageMismatch := by
  have hlimit := h.of_le hi
  obtain ⟨fuel, m, hscan⟩ := hlimit.scan_eq_turn le_rfl
  rw [hscan, scanFrom_of_limit_le (Nat.sub_pos_of_lt hlimit.deficit) le_rfl]

theorem ScanReaches.scan_of_invalid (h : ScanReaches entry tl i) (hi : i < limit) (hv : entry i = 0 ∨ entry i < -1) :
    scan entry limit tl = .error .invalidCount := by
  obtain ⟨fuel, m, hscan⟩ := h.scan_eq_turn hi.le
  rw [hscan, scanFrom_of_invalid (Nat.sub_pos_of_lt h.deficit) hi hv]

theorem ScanReaches.scan_of_overshoot (h : ScanReaches entry tl i) (hi : i < limit) (hv : ValidCount (entry i))
    (ho : 2 ^ tl < coverage entry (i + 1)) : scan entry limit tl = .error .coverageMismatch := by
  obtain ⟨fuel, m, hscan⟩ := h.scan_eq_turn hi.le
  rw [coverage_succ] at ho
  rw [hscan, scanFrom_of_overshoot (Nat.sub_pos_of_lt h.deficit) hi hv (by omega)]

theorem IsMaxCount.unique {m m' : Int} (h : IsMaxCount entry n m) (h' : IsMaxCount entry n m') : m = m' := by
  obtain ⟨i, hi, rfl⟩ := h.attained
  obtain ⟨j, hj, rfl⟩ := h'.attained
  exact le_antisymm (h'.greatest i hi) (h.greatest j hj)

/-- The converse of `scan_ok`: on a table the scan comes to its end with no deficit left, so it ends well, and the
count it reports is the greatest. -/
theorem scan_of_isTable (hT : IsTable entry limit tl n) (hM : IsMaxCount entry n m) :
    scan entry limit tl = .ok (n, m) := by
  obtain ⟨fuel, m', _, hscan⟩ := scan_eq_scanFrom hT.within hT.valid hT.total.le
  rw [hT.total, Nat.sub_self, scanFrom_of_deficit_zero] at hscan
  rw [hscan, (scan_ok hscan).2.unique hM]

theorem scan_eq_ok_iff : scan entry limit tl = .ok (n, m) ↔ IsTable entry limit tl n ∧ IsMaxCount entry n m :=
  ⟨scan_ok, fun ⟨hT, hM⟩ => scan_of_isTable hT hM⟩

/-! ## What a scan reads -/

/-- From any point of the loop, the rest of the scan reads only entries it reaches: where the counts agree on these,
so does every turn. -/
theorem scanFrom_congr (h : ∀ i < limit, ScanReaches entry tl i → entry i = entry' i) {fuel deficit : Nat}
    (hv : ∀ j < i, ValidCount (entry j)) (hc : coverage entry i + deficit = 2 ^ tl) :
    scanFrom entry' limit fuel i deficit m = scanFrom entry limit fuel i deficit m := by
  induction fuel generalizing i deficit m with
  | zero => rfl
  | succ fuel ih =>
    rcases Nat.eq_zero_or_pos deficit with rfl | hd
    · rw [scanFrom_of_deficit_zero, scanFrom_of_deficit_zero]
    rcases Nat.lt_or_ge i limit with hi | hi
    · have he : entry i = entry' i := h i hi ⟨hv, by omega⟩
      by_cases hvi : ValidCount (entry i)
      · rcases Nat.lt_or_ge deficit (entry i).natAbs with ho | hle
        · rw [scanFrom_of_overshoot hd hi hvi ho, scanFrom_of_overshoot hd hi (he ▸ hvi) (he ▸ ho)]
        · rw [scanFrom_step hd hi hvi hle, scanFrom_step hd hi (he ▸ hvi) (he ▸ hle), ← he]
          exact ih (Nat.forall_lt_succ_right.mpr ⟨hv, hvi⟩) (by rw [coverage_succ]; omega)
      · have hbad := not_not.mp (mt (validCount_iff _).mpr hvi)
        rw [scanFrom_of_invalid hd hi hbad, scanFrom_of_invalid hd hi (he ▸ hbad)]
    · rw [scanFrom_of_limit_le hd hi, scanFrom_of_limit_le hd hi]

theorem scan_congr (h : ∀ i < limit, ScanReaches entry tl i → entry i = entry' i) :
    scan entry' limit tl = scan entry limit tl :=
  scanFrom_congr h (fun j hj => absurd hj (Nat.not_lt_zero j)) (by rw [coverage_zero, Nat.zero_add])

end ScanReach

/-! ## The positivity check -/

/-- ENCODE whose checks before the trial run fail (41_ncount_encoder.md R131). -/
theorem exec_encode_of_plan_error {tl : Nat} {s : State} {code : ResultCode} (h : encodePlan tl s = .error code) :
    exec (.encode tl) s = .next (s.setStatus ⟨code, true⟩) := by
  have htrial : encodeTrial overwidePolicy tl s = .error code := by rw [encodeTrial, h]
  have hcode : code ≠ .ok := by rcases encodePlan_error h with rfl | rfl | rfl <;> decide
  show encodeUnder overwidePolicy tl s = _
  rw [encodeUnder, htrial]
  exact raiseError_eq hcode s

theorem encodePlan_of_max_nonpos {tl n : Nat} {s : State} {m : Int} (h5 : 5 ≤ tl) (h8 : tl ≤ 8)
    (hscan : scan (entryRead s) (entryLimit s) tl = .ok (n, m)) (hm : m ≤ 0) :
    encodePlan tl s = .error .coverageMismatch := by
  rw [encodePlan, if_neg (by omega), hscan]
  exact if_pos hm

/-- A table's greatest count is not positive exactly when every count is the sentinel: no other valid count is
below 1 (41_ncount_encoder.md R133). -/
theorem IsTable.max_nonpos_iff {entry : Nat → Int} {limit tl n : Nat} {m : Int} (hT : IsTable entry limit tl n)
    (hM : IsMaxCount entry n m) : m ≤ 0 ↔ ∀ i < n, entry i = -1 := by
  constructor
  · intro hm i hi
    exact (hT.valid i hi).resolve_right (Int.not_lt.mpr ((hM.greatest i hi).trans hm))
  · intro hall
    obtain ⟨i, hi, rfl⟩ := hM.attained
    rw [hall i hi]
    decide

/-! ## The trial run and the machine -/

/-- The machine's state once a trial run's result is committed (41_ncount_encoder.md R139). -/
def commitTrial (s : State) (r : BitWriter × List (Word × Word)) : State :=
  (s.setMem (commitWrites s.mem r.2)).setBw r.1

/-- Performing operations on the machine is their trial run, committed: the same checks in the same order, since they
look only at the BitWriter and the buffer's bounds, and the same writes, since no operation reads memory. -/
theorem performOps_eq_map_runOps (policy : OverwidePolicy) (ops : List BwOp) (s : State) :
    performOps policy ops s = (runOps policy s.bufBase s.bufEnd ops s.bw).map (commitTrial s) := by
  induction ops generalizing s with
  | nil => rfl
  | cons op ops ih =>
    cases op with
    | add v w =>
      rw [performOps, runOps]
      split
      · rfl
      · exact ih _
    | flush =>
      rw [performOps, runOps]
      split
      · rfl
      · rw [ih]
        simp only [setBw_bufBase, setMem_bufBase, setBw_bufEnd, setMem_bufEnd, setBw_bw]
        cases runOps policy s.bufBase s.bufEnd ops (bwFlush s.bw) <;> rfl

theorem encodeTrial_of_plan {policy : OverwidePolicy} {tl : Nat} {s : State} {ops : List BwOp}
    (h : encodePlan tl s = .ok ops) : encodeTrial policy tl s = runOps policy s.bufBase s.bufEnd ops s.bw := by
  rw [encodeTrial, h]

/-! ## The obligations of ENCODE's checks, trial run and commit -/

/-- Settles O50: the plan's trial run decides both sides; ENCODE commits its result or raises its error, and performing
the plan on the machine gives the committed state or that same error. -/
theorem encodeIsItsPlanPerformedOrNothing : Obligations.EncodeIsItsPlanPerformedOrNothing := by
  intro policy tl s ops hplan
  rw [performOps_eq_map_runOps, ← encodeTrial_of_plan hplan]
  rcases encodeUnder_cases policy tl s with ⟨code, htrial, _, hend⟩ | ⟨b, ws, htrial, hend⟩
  · rw [htrial]
    exact ⟨nofun, fun _ h => by cases h; exact hend⟩
  · rw [htrial]
    exact ⟨fun _ h => by cases h; exact hend, nofun⟩

/-- Settles O42: the loop keeps the deficit the counts before it leave, so it comes to every index the table's counts
let it reach, and there the entry alone decides how it goes on. -/
theorem scanVerdict : Obligations.ScanVerdict := by
  intro entry limit tl
  exact ⟨fun _ _ => scan_eq_ok_iff,
    fun _ hreach => ⟨hreach.scan_of_limit_le, hreach.scan_of_invalid, hreach.scan_of_overshoot⟩,
    fun _ _ hscan => (scan_ok hscan).1.pos, fun _ => scan_congr, exec_encode_of_tableLog_out_of_range⟩

/-- Settles O44: a scan that ends well has found a table and its greatest count, which some entry attains, so the
table's own bounds are its bounds. -/
theorem positivityFailsExactlyOnSentinelTables : Obligations.PositivityFailsExactlyOnSentinelTables := by
  intro entry limit tl n m hscan
  obtain ⟨hT, hM⟩ := scan_ok hscan
  refine ⟨hT.max_nonpos_iff hM, fun hm => ⟨hm, ?_⟩, fun s hentry hlimit h5 h8 hm => ?_⟩
  · obtain ⟨i, hi, rfl⟩ := hM.attained
    exact hT.max_le hi
  · subst hentry hlimit
    exact exec_encode_of_plan_error (encodePlan_of_max_nonpos h5 h8 hscan hm)

end Sys2Proof.Machine

/-! Exceptions: what a command leaves in STATUS, and the errors ENCODE raises before its trial run. -/

namespace Sys2Proof.Machine

/-! ## STATUS after a command -/

/-- A command that does not complete has only raised its error (60_exceptions.md R179). -/
theorem Ends.result_ok_or_only_status {i : Instr} {s t : State} (h : Ends i s t) :
    t.status.result = .ok ∨ t = s.setStatus ⟨t.status.result, true⟩ := by
  cases h with
  | error code _ _ ht => exact .inr (ht ▸ rfl)
  | init _ ht => exact .inl (ht ▸ rfl)
  | addbits _ _ _ _ ht => exact .inl (ht ▸ rfl)
  | flush _ _ ht => exact .inl (ht ▸ rfl)
  | encode _ _ _ _ _ _ _ ht => exact .inl (ht ▸ rfl)

/-- STICKY after a command: INIT clears it, an error sets it, any other success keeps it (60_exceptions.md R170). -/
theorem Ends.sticky_iff {i : Instr} {s t : State} (h : Ends i s t) :
    t.status.sticky = true ↔ i ≠ .init ∧ (s.status.sticky = true ∨ t.status.result ≠ .ok) := by
  cases h with
  | init hi ht => simp [hi, ht]
  | error code hi hc ht => simp [hi, hc, ht]
  | addbits width hi _ _ ht => simp [hi, ht]
  | flush hi _ ht => simp [hi, ht]
  | encode tl ops b ws hi _ _ ht => simp [hi, ht]

/-! ## The codes each command can end with -/

theorem exec_init_result {s t : State} (h : exec .init s = .next t) : t.status.result = .ok := by
  rw [exec_init] at h
  cases h
  rfl

theorem exec_addbits_result {width : Nat} {s t : State} (h : exec (.addbits width) s = .next t) :
    t.status.result ∈ [ResultCode.ok, .registerOverflow, .valueTooWide] := by
  by_cases hf : AddFits s.bw width
  · rcases Nat.lt_or_ge s.arg.toNat (2 ^ width) with hv | hv
    · rw [exec_addbits_of_fits hf hv] at h; cases h; simp
    · rw [exec_addbits_of_too_wide hf hv] at h; cases h; simp
  · rw [exec_addbits_of_not_fits hf] at h; cases h; simp

theorem exec_flush_result {s t : State} (h : exec .flush s = .next t) :
    t.status.result ∈ [ResultCode.ok, .bufferTooSmall] := by
  by_cases hf : FlushFits s.bufBase s.bufEnd s.bw.cursor
  · rw [exec_flush_of_fits hf] at h; cases h; simp
  · rw [exec_flush_of_not_fits hf] at h; cases h; simp

theorem exec_encode_result {tl : Nat} {s t : State} (h : exec (.encode tl) s = .next t) :
    t.status.result ∈
      [ResultCode.ok, .invalidTableLog, .coverageMismatch, .invalidCount, .registerOverflow, .bufferTooSmall] := by
  rcases encodeUnder_cases overwidePolicy tl s with ⟨code, _, hcode, hend⟩ | ⟨b, ws, _, hend⟩
  · cases hend.symm.trans h
    exact List.mem_cons_of_mem _ hcode
  · cases hend.symm.trans h
    exact List.mem_cons_self

/-! ## The count errors of ENCODE -/

/-- ENCODE raises what its scan ends with, before any bit is written (41_ncount_encoder.md R131). -/
theorem exec_encode_of_scan_error {tl : Nat} {s : State} {code : ResultCode} (h5 : 5 ≤ tl) (h8 : tl ≤ 8)
    (h : scan (entryRead s) (entryLimit s) tl = .error code) :
    exec (.encode tl) s = .next (s.setStatus ⟨code, true⟩) := by
  refine exec_encode_of_plan_error ?_
  rw [encodePlan, if_neg (by omega), h]

/-- A table has an entry, so it has a greatest count. -/
theorem IsTable.exists_isMaxCount {entry : Nat → Int} {limit tl n : Nat} (hT : IsTable entry limit tl n) :
    ∃ m, IsMaxCount entry n m := by
  obtain ⟨i, hi, hmax⟩ := (Finset.range n).exists_max_image entry ⟨0, Finset.mem_range.mpr hT.pos⟩
  exact ⟨entry i, ⟨i, Finset.mem_range.mp hi, rfl⟩, fun j hj => hmax j (Finset.mem_range.mpr hj)⟩

/-- The positivity check, for a table none of whose counts is positive (60_exceptions.md R173 (c)). -/
theorem exec_encode_of_no_positive {tl n : Nat} {s : State} (h5 : 5 ≤ tl) (h8 : tl ≤ 8)
    (hT : IsTable (entryRead s) (entryLimit s) tl n) (hall : ∀ i < n, entryRead s i ≤ 0) :
    exec (.encode tl) s = .next (s.setStatus ⟨.coverageMismatch, true⟩) := by
  obtain ⟨m, hM⟩ := hT.exists_isMaxCount
  have hm : m ≤ 0 := by
    obtain ⟨i, hi, rfl⟩ := hM.attained
    exact hall i hi
  exact exec_encode_of_plan_error (encodePlan_of_max_nonpos h5 h8 (scan_of_isTable hT hM) hm)

/-! ## The obligations of the exceptions -/

/-- Settles O33: of a command's ways to end only the error has another result than OK, and it writes STATUS alone. -/
theorem failingCommandChangesOnlyStatus : Obligations.FailingCommandChangesOnlyStatus :=
  fun _ _ _ h hne => (exec_next h).result_ok_or_only_status.resolve_left hne

/-- Settles O34: STICKY by the way the command ended, the codes command by command. -/
theorem everyCommandFinishesStatus : Obligations.EveryCommandFinishesStatus := by
  refine ⟨fun i s t h => ⟨(exec_next h).sticky_iff, ?_⟩, fun w e s he => ?_, rfl⟩
  · cases i with
    | init => exact exec_init_result h
    | addbits => exact exec_addbits_result h
    | flush => exact exec_flush_result h
    | encode => exact exec_encode_result h
  · exact runCommand_illegal (fun i hi => nomatch he.symm.trans hi) s

/-- Settles O43: the scan ends with the first error it reaches, and ENCODE raises it; a complete table is left to the
positivity check. -/
theorem countErrorsOfEncode : Obligations.CountErrorsOfEncode := by
  intro tl s h5 h8
  refine ⟨fun i hreach => ⟨fun hend => ?_, fun hi hbad => ?_, fun hi hvalid hover => ?_⟩, fun n hT hall => ?_⟩
  · exact exec_encode_of_scan_error h5 h8 (hreach.scan_of_limit_le hend)
  · exact exec_encode_of_scan_error h5 h8 (hreach.scan_of_invalid hi hbad)
  · exact exec_encode_of_scan_error h5 h8 (hreach.scan_of_overshoot hi hvalid hover)
  · exact exec_encode_of_no_positive h5 h8 hT hall

/-- Settles O41: ENCODE's first check, which looks at its operand alone. -/
theorem tableLogOutsideRangeIsRejectedFirst : Obligations.TableLogOutsideRangeIsRejectedFirst :=
  fun _ s h => exec_encode_of_tableLog_out_of_range h s

end Sys2Proof.Machine

/-! The encoder and the decoder undo each other, and the words written out in the spec. -/

namespace Sys2Proof.Machine

/-! ## From a command to its word and back -/

theorem wellFormed_of_selects {w : Word} {i : Instr} (h : Selects w i) : i.wellFormed = true := by
  cases i with
  | init | flush => rfl
  | addbits | encode =>
    obtain ⟨_, rfl⟩ := h
    exact decide_eq_true (Nat.mod_lt _ (by decide))

/-- A word that selects a command has no bits but the command's opcode and operand (30_encoding.md R81 to R83). -/
theorem encode_of_selects {w : Word} {i : Instr} (h : Selects w i) : encode i = w := by
  apply BitVec.eq_of_toNat_eq
  cases i with
  | init =>
    obtain ⟨hop, hreserved⟩ := h
    show 1 = w.toNat
    omega
  | flush =>
    obtain ⟨hop, hreserved⟩ := h
    show 3 = w.toNat
    omega
  | addbits =>
    obtain ⟨⟨hop, hreserved⟩, rfl⟩ := h
    refine (toNat_opcode_or_operand (op := 2) (by decide) (by omega)).trans ?_
    omega
  | encode =>
    obtain ⟨⟨hop, hreserved⟩, rfl⟩ := h
    refine (toNat_opcode_or_operand (op := 4) (by decide) (by omega)).trans ?_
    omega

/-- Settles O3: a well-formed command's word is its opcode with its operand above it, and decodes so. -/
theorem decodeOfEncodeIsTheCommand : Obligations.DecodeOfEncodeIsTheCommand := by
  intro i h
  cases i with
  | init => exact decode_of_selects ⟨rfl, rfl⟩
  | addbits width => exact decode_addbits_word (of_decide_eq_true h)
  | flush => exact decode_of_selects ⟨rfl, rfl⟩
  | encode tl => exact decode_encode_word (of_decide_eq_true h)

/-- Settles O4: what a word selects is well formed, and is all the word holds. -/
theorem encodeOfDecodeIsTheWord : Obligations.EncodeOfDecodeIsTheWord := by
  intro w i h
  have hsel := selects_of_decode h
  exact ⟨wellFormed_of_selects hsel, encode_of_selects hsel⟩

/-! ## Words and lines written out -/

/-- Settles O5: closed words, decoded by evaluation. -/
theorem sampleWordsDecode : Obligations.SampleWordsDecode := by
  unfold Obligations.SampleWordsDecode
  decide

/-- The assembler's lines for the operands of one mnemonic, by evaluation at each operand in range. -/
theorem assemble_addbits_line : ∀ w < 64, ∀ t ∈ [Nat.toDigits 10 w, '0' :: 'x' :: Nat.toDigits 16 w],
    assemble ["ADDBITS".toList, t] = some (0x00000002#32 ||| BitVec.ofNat 32 w <<< 4) := by
  decide

theorem assemble_encode_line : ∀ tl < 16, ∀ t ∈ [Nat.toDigits 10 tl, '0' :: 'x' :: Nat.toDigits 16 tl],
    assemble ["encode".toList, t] = some (0x00000004#32 ||| BitVec.ofNat 32 tl <<< 4) := by
  decide

/-- Settles O6: closed lines, assembled by evaluation. -/
theorem commandLinesStandForTheirWords : Obligations.CommandLinesStandForTheirWords :=
  ⟨by decide, by decide, assemble_addbits_line, assemble_encode_line, by decide, by decide, by decide, by decide⟩

end Sys2Proof.Machine

/-! The invariant: what every command and every other host access keeps, and what it says of reachable states. -/

namespace Sys2Proof.Machine

/-! ## What the invariant speaks of -/

/-- The invariant looks at output memory and the BitWriter alone. -/
theorem State.Inv.of_same {s t : State} (hs : s.Inv) (hm : t.mem = s.mem) (hb : t.bw = s.bw) : t.Inv :=
  ⟨hm ▸ hs.memory, hb ▸ hs.fill, hb ▸ hs.acc⟩

theorem clean_empty (cursor : Word) : BitWriter.Clean ⟨0, 0, cursor⟩ :=
  Nat.one_pos

/-- A BitWriter with no bits, as INIT and reset leave it, meets the invariant over any memory in canonical form. -/
theorem inv_of_empty {s : State} {cursor : Word} (hm : Memory.wf s.mem) (hb : s.bw = ⟨0, 0, cursor⟩) : s.Inv :=
  ⟨hm, hb ▸ Nat.zero_le 32, hb ▸ Nat.two_pos⟩

/-! ## Commands keep the invariant -/

/-- A flush that fits ends inside the address space, since BUF_END is a 32-bit address (20_memory.md R56). -/
theorem FlushFits.in_space {lo hi cursor : Word} (h : FlushFits lo hi cursor) : cursor.toNat + 4 ≤ addressSpaceSize :=
  h.2.trans hi.isLt.le

theorem Ends.inv {i : Instr} {s t : State} (h : Ends i s t) (hs : s.Inv) : t.Inv := by
  cases h with
  | init _ ht =>
    subst ht
    exact inv_of_empty hs.memory rfl
  | error _ _ _ ht =>
    subst ht
    exact hs.of_same rfl rfl
  | addbits width _ hf hv ht =>
    have hfill : (bwAdd s.bw s.arg.toNat width).fill.toNat ≤ 32 := (bwAdd_fill hf _).trans_le hf
    exact ht ▸ ⟨hs.memory, hfill, bwAdd_strayAtMost hf hs.acc (.inl hv)⟩
  | flush _ hf ht =>
    have hfill : (bwFlush s.bw).fill.toNat ≤ 32 := by rw [bwFlush_fill]; omega
    exact ht ▸ ⟨memWrite4_wf hs.memory hf.in_space _, hfill, bwFlush_strayAtMost hs.acc⟩
  | encode tl ops b ws _ hp hr ht =>
    have hspace := fun p hp => (runOps_writes_fit hr p hp).in_space
    exact ht ▸ ⟨commitWrites_wf hspace hs.memory, (runOps_cursor hs.fill hr).1,
      runOps_strayAtMost (encodePlan_good hp) hs.acc hr⟩

theorem runCommand_inv {w : Word} {s t : State} (hs : s.Inv) (h : runCommand w s = .next t) : t.Inv := by
  unfold runCommand at h
  split at h
  · exact (exec_next h).inv hs
  · cases h
    exact hs.of_same rfl rfl

/-! ## Other host accesses keep it -/

/-- A register write stores in a register the invariant does not speak of, or runs a command. -/
theorem writeOffset_inv {offset : Nat} {v : Word} {s t : State} (hs : s.Inv) (h : writeOffset offset v s = .next t) :
    t.Inv := by
  unfold writeOffset at h
  split at h
  case h_1 => exact runCommand_inv hs h
  all_goals
    cases h
    exact hs.of_same rfl rfl

theorem performAccess_inv {a : HostAccess} {s t : State} (hs : s.Inv) (h : performAccess a s = .next t) : t.Inv := by
  cases a with
  | regWrite bytes offset data =>
    rw [performAccess] at h
    split_ifs at h
    exact writeOffset_inv hs h
  | regRead bytes offset =>
    rw [performAccess] at h
    split_ifs at h
    cases h
    exact hs.of_same rfl rfl
  | reset =>
    cases h
    exact inv_of_empty hs.memory rfl
  | memWrite address data =>
    rw [performAccess] at h
    split_ifs at h with hspace
    cases h
    exact ⟨writeByte_wf hs.memory (Nat.lt_of_not_le hspace) data, hs.fill, hs.acc⟩
  | memRead address =>
    rw [performAccess] at h
    split_ifs at h
    cases h
    exact hs.of_same rfl rfl
  | supplyEntries | sourceWrite | sourceRead =>
    cases h
    exact hs.of_same rfl rfl
  | foreignAccess => cases h

/-- Settles O20: commands by the ways they can end, every other access by what it writes. -/
theorem everyStepKeepsTheInvariant : Obligations.EveryStepKeepsTheInvariant := by
  intro s t hs h
  unfold step at h
  split at h
  · cases h
    exact hs
  · exact performAccess_inv (hs.of_same (t := s.takeAccess _) rfl rfl) h

/-! ## Reset and reachable states -/

/-- Settles O19: memory with nothing listed is in canonical form. -/
theorem resetMeetsTheInvariant : Obligations.ResetMeetsTheInvariant :=
  inv_of_empty (by decide) rfl

theorem Reachable.inv {s : State} (h : Reachable s) : s.Inv := by
  induction h with
  | reset m counts accesses hm => exact inv_of_empty hm rfl
  | step s t _ h ih => exact everyStepKeepsTheInvariant s t ih h
  | post s a _ ih => exact ih.of_same rfl rfl

/-- Settles O21: the invariant bounds FILL. -/
theorem fillIsAtMost32InEveryReachableState : Obligations.FillIsAtMost32InEveryReachableState :=
  fun _ h => h.inv.fill

/-- Settles O23: of the commands that are not ENCODE, ADDBITS alone writes ACC's bits, with a value that fits. -/
theorem onlyEncodeLeavesABitAboveFill : Obligations.OnlyEncodeLeavesABitAboveFill := by
  intro i s t hi _ hclean h
  cases exec_next h with
  | init _ ht => exact ht ▸ clean_empty s.bufBase
  | error _ _ _ ht => exact ht ▸ hclean
  | addbits width _ hf hv ht => exact ht ▸ bwAdd_clean hf hv (.inl hclean)
  | flush _ _ ht => exact ht ▸ bwFlush_clean hclean
  | encode tl _ _ _ he => exact absurd he (hi tl)

end Sys2Proof.Machine

/-! The output stream: what each command appends to it, and what stands in memory after a flush. -/

namespace Sys2Proof.Machine

/-! ## A run whose last field may be over-wide -/

theorem applyPolicy_of_fits (policy : OverwidePolicy) {v w : Nat} (h : v < 2 ^ w) : applyPolicy policy v w = v := by
  cases policy with
  | literal => rfl
  | mask => exact Nat.mod_eq_of_lt h

/-- A last field, over-wide or not, and its flush. -/
theorem runOps_last {lo hi : Word} {b : BitWriter} {w : Nat} (hadd : AddFits b w) (hflush : FlushFits lo hi b.cursor)
    (policy : OverwidePolicy) (v : Nat) :
    runOps policy lo hi [.add v w, .flush] b =
      .ok (bwFlush (bwAdd b (applyPolicy policy v w) w), [(b.cursor, (bwAdd b (applyPolicy policy v w) w).acc)]) := by
  rw [runOps, if_neg (not_not.mpr hadd), runOps, bwAdd_cursor, if_neg (not_not.mpr hflush), runOps]

/-- Where only the last field can be over-wide, the policy decides no check: either every policy's run fails with one
code, or all take the same way to the last field (41_ncount_encoder.md R140, R141). -/
theorem runOps_front_last {lo hi : Word} {front : List BwOp} (hv : ∀ v w, BwOp.add v w ∈ front → v < 2 ^ w)
    (v w : Nat) (b : BitWriter) :
    (∃ code, ∀ policy, runOps policy lo hi (front ++ [.add v w, .flush]) b = .error code) ∨
    ∃ b' ws, AddFits b' w ∧ FlushFits lo hi b'.cursor ∧ ∀ policy,
      runOps policy lo hi front b = .ok (b', ws) ∧
      runOps policy lo hi (front ++ [.add v w, .flush]) b =
        .ok (bwFlush (bwAdd b' (applyPolicy policy v w) w),
          ws ++ [(b'.cursor, (bwAdd b' (applyPolicy policy v w) w).acc)]) := by
  induction front generalizing b with
  | nil =>
    by_cases hadd : AddFits b w
    · by_cases hflush : FlushFits lo hi b.cursor
      · exact .inr ⟨b, [], hadd, hflush, fun policy => ⟨rfl, runOps_last hadd hflush policy v⟩⟩
      · refine .inl ⟨.bufferTooSmall, fun policy => ?_⟩
        rw [List.nil_append, runOps, if_neg (not_not.mpr hadd), runOps, bwAdd_cursor, if_pos hflush]
    · refine .inl ⟨.registerOverflow, fun policy => ?_⟩
      rw [List.nil_append, runOps, if_pos hadd]
  | cons op front ih =>
    have hv' : ∀ v w, BwOp.add v w ∈ front → v < 2 ^ w := fun v w ho => hv v w (List.mem_cons_of_mem _ ho)
    cases op with
    | add v₀ w₀ =>
      have hpolicy := fun policy => applyPolicy_of_fits policy (hv v₀ w₀ List.mem_cons_self)
      simp only [List.cons_append, runOps, hpolicy]
      by_cases hadd : AddFits b w₀
      · simpa only [if_neg (not_not.mpr hadd)] using ih hv' (bwAdd b v₀ w₀)
      · exact .inl ⟨.registerOverflow, fun _ => if_pos hadd⟩
    | flush =>
      simp only [List.cons_append, runOps]
      by_cases hflush : FlushFits lo hi b.cursor
      · simp only [if_neg (not_not.mpr hflush)]
        rcases ih hv' (bwFlush b) with ⟨code, herr⟩ | ⟨b', ws, hadd, hlast, hrun⟩
        · exact .inl ⟨code, fun policy => by rw [herr]⟩
        · exact .inr ⟨b', (b.cursor, b.acc) :: ws, hadd, hlast, fun policy =>
            ⟨by rw [(hrun policy).1], by rw [(hrun policy).2, List.cons_append]⟩⟩
      · exact .inl ⟨.bufferTooSmall, fun _ => if_pos hflush⟩

/-- The trial run of a plan that passes: the fields before the last, which fit, then the last field and its flush. -/
theorem runOps_plan_ok {policy : OverwidePolicy} {tl : Nat} {s : State} {ops : List BwOp}
    {r : BitWriter × List (Word × Word)} (hp : encodePlan tl s = .ok ops)
    (hr : runOps policy s.bufBase s.bufEnd ops s.bw = .ok r) :
    ∃ front v w b ws, ops = front ++ [.add v w, .flush] ∧ (∀ v w, BwOp.add v w ∈ front → v < 2 ^ w) ∧ v ≤ 2 ^ w ∧
      runOps policy s.bufBase s.bufEnd front s.bw = .ok (b, ws) ∧ AddFits b w ∧
      FlushFits s.bufBase s.bufEnd b.cursor ∧ r = (bwFlush (bwAdd b (applyPolicy policy v w) w),
        ws ++ [(b.cursor, (bwAdd b (applyPolicy policy v w) w).acc)]) := by
  obtain ⟨front, v, w, rfl, hv, _, hvw⟩ := encodePlan_split hp
  rcases runOps_front_last hv v w s.bw with ⟨code, herr⟩ | ⟨b, ws, hadd, hflush, hrun⟩
  · exact nomatch (herr policy).symm.trans hr
  · obtain ⟨hfront, hall⟩ := hrun policy
    refine ⟨front, v, w, b, ws, rfl, hv, hvw, hfront, hadd, hflush, ?_⟩
    exact Except.ok.inj (hr.symm.trans hall)

/-! ## After a flush -/

/-- The state `t` is what a flush that fits the buffer of `s` leaves of some BitWriter, whose FILL is at most 32 if that of
`s` is. -/
inductive JustFlushed (s t : State) : Prop where
  | intro (b : BitWriter) (m : Memory) (hfits : FlushFits s.bufBase s.bufEnd b.cursor)
      (hfill : s.bw.fill.toNat ≤ 32 → b.fill.toNat ≤ 32) (hbw : t.bw = bwFlush b)
      (hmem : t.mem = memWrite4 m b.cursor.toNat b.acc)

/-- FLUSH and ENCODE end with a flush, where they succeed (40_bitwriter.md R107; 41_ncount_encoder.md R137). -/
theorem Ends.justFlushed {i : Instr} {s t : State} (h : Ends i s t) (hi : i = .flush ∨ ∃ tl, i = .encode tl)
    (hok : t.status.result = .ok) : JustFlushed s t := by
  cases h with
  | init he => rcases hi with hi | ⟨tl, hi⟩ <;> cases he.symm.trans hi
  | error code _ hc ht =>
    subst ht
    exact absurd hok hc
  | addbits width he => rcases hi with hi | ⟨tl, hi⟩ <;> cases he.symm.trans hi
  | flush _ hf ht =>
    subst ht
    exact ⟨s.bw, s.mem, hf, id, rfl, rfl⟩
  | encode tl ops b ws _ hp hr ht =>
    subst ht
    obtain ⟨front, v, w, b', ws', _, _, _, _, hadd, hflush, hend⟩ := runOps_plan_ok hp hr
    cases hend
    refine ⟨bwAdd b' (applyPolicy overwidePolicy v w) w, commitWrites s.mem ws', hflush,
      fun _ => (bwAdd_fill hadd _).trans_le hadd, rfl, ?_⟩
    exact commitWrites_append s.mem ws' _

theorem JustFlushed.fill_le {s t : State} (h : JustFlushed s t) : t.bw.fill.toNat ≤ 7 := by
  obtain ⟨b, m, _, _, hbw, _⟩ := h
  rw [hbw, bwFlush_fill]
  omega

/-- A flush stores all of ACC, so the bits it keeps stand in memory too (20_memory.md R55). -/
theorem JustFlushed.held {s t : State} (h : JustFlushed s t) (hs : s.bw.fill.toNat ≤ 32) : HeldInMemory t := by
  obtain ⟨b, m, hfits, hfill, hbw, hmem⟩ := h
  have hcursor := bwFlush_cursor (hfill hs) hfits
  have hb := hfill hs
  intro q hq
  rw [hbw, bwFlush_fill] at hq
  rw [hmem, hbw, memoryBit_base, memoryBit_memWrite4, hcursor, if_pos (by omega), bwFlush_acc_bit]
  congr 2
  omega

/-- Where ACC's bits stand in memory, memory holds the stream up to its end. -/
theorem HeldInMemory.memoryBit_eq_view {t : State} (h : HeldInMemory t) {p : Nat} (hp : p < streamPos t.bw) :
    memoryBit t.mem 0 p = streamView t.bw t.mem p := by
  unfold streamPos at hp
  unfold streamView
  split
  · rfl
  · next hge =>
    rw [← h (p - 8 * t.bw.cursor.toNat) (by omega), memoryBit_base t.mem t.bw.cursor.toNat]
    congr 1
    omega

/-- Settles O22: both commands end with a flush, which keeps `FILL mod 8`. -/
theorem fillIsAtMost7AfterFlushAndEncode : Obligations.FillIsAtMost7AfterFlushAndEncode :=
  fun _ _ _ hi h hok => ((exec_next h).justFlushed hi hok).fill_le

/-! ## Appending to the stream -/

/-- From `(b, m)` to `(b', m')` the stream grows by `bits`, and no bit of it changes. -/
structure Appends (bits : List Bool) (b : BitWriter) (m : Memory) (b' : BitWriter) (m' : Memory) : Prop where
  fill   : b'.fill.toNat ≤ 32
  cursor : b.cursor.toNat ≤ b'.cursor.toNat
  pos    : streamPos b' = streamPos b + bits.length
  below  : ∀ p < streamPos b, streamView b' m' p = streamView b m p
  new    : ∀ k < bits.length, streamView b' m' (streamPos b + k) = bits[k]?

theorem Appends.trans {xs ys : List Bool} {b b₁ b₂ : BitWriter} {m m₁ m₂ : Memory} (h₁ : Appends xs b m b₁ m₁)
    (h₂ : Appends ys b₁ m₁ b₂ m₂) : Appends (xs ++ ys) b m b₂ m₂ := by
  have hpos := h₁.pos
  refine ⟨h₂.fill, h₁.cursor.trans h₂.cursor, ?_, fun p hp => ?_, fun k hk => ?_⟩
  · rw [h₂.pos, hpos, List.length_append, Nat.add_assoc]
  · rw [h₂.below p (by omega), h₁.below p hp]
  · rw [List.length_append] at hk
    rcases Nat.lt_or_ge k xs.length with hx | hx
    · rw [h₂.below _ (by omega), h₁.new k hx, List.getElem?_append_left hx]
    · have hnew := h₂.new (k - xs.length) (by omega)
      rw [hpos, show streamPos b + xs.length + (k - xs.length) = streamPos b + k by omega] at hnew
      rw [hnew, List.getElem?_append_right hx]

/-- An add to a clean ACC, even of an over-wide value, appends its field's bits (40_bitwriter.md R104). -/
theorem Appends.add {b : BitWriter} {w : Nat} (hc : b.Clean) (hf : AddFits b w) (v : Nat) (m : Memory) :
    Appends (fieldBits v w) b m (bwAdd b v w) m := by
  have hlen := fieldBits_length v w
  refine ⟨(bwAdd_fill hf v).trans_le hf, le_rfl, by rw [streamPos_bwAdd hf, hlen], fun p hp => ?_, fun k hk => ?_⟩
  · rw [streamView_bwAdd, if_pos hp]
  · exact streamView_bwAdd_clean hc hf m (hlen ▸ hk)

theorem Appends.flush {b : BitWriter} {lo hi : Word} (hb : b.fill.toNat ≤ 32) (hf : FlushFits lo hi b.cursor)
    (m : Memory) : Appends [] b m (bwFlush b) (memWrite4 m b.cursor.toNat b.acc) := by
  have hfill : (bwFlush b).fill.toNat ≤ 32 := by rw [bwFlush_fill]; omega
  have hcursor := bwFlush_cursor hb hf
  exact ⟨hfill, by omega, streamPos_bwFlush hb hf, fun p _ => streamView_bwFlush hb hf m p, nofun⟩

theorem Appends.of_runOps {policy : OverwidePolicy} {lo hi : Word} {ops : List BwOp} {b : BitWriter}
    {r : BitWriter × List (Word × Word)} (hv : ∀ v w, BwOp.add v w ∈ ops → v < 2 ^ w) (hb : b.fill.toNat ≤ 32)
    (hc : b.Clean) (h : runOps policy lo hi ops b = .ok r) (m : Memory) :
    Appends (streamBits ops) b m r.1 (commitWrites m r.2) := by
  obtain ⟨hfill, hcursor, _⟩ := runOps_cursor hb h
  exact ⟨hfill, hcursor, runOps_pos hb h, fun p hp => runOps_view_below hb h m hp, (runOps_view_fits hv hb hc h m).2⟩

/-- A successful command but INIT appends its bits (20_memory.md R55). -/
theorem Ends.appends {i : Instr} {s t : State} (h : Ends i s t) (hi : i ≠ .init) (hfill : s.bw.fill.toNat ≤ 32)
    (hclean : i = .flush ∨ s.bw.Clean) (hok : t.status.result = .ok) :
    Appends (commandBits i s) s.bw s.mem t.bw t.mem := by
  cases h with
  | init he => exact absurd he hi
  | error code _ hc ht =>
    subst ht
    exact absurd hok hc
  | addbits width he hf _ ht =>
    subst he ht
    exact .add (hclean.resolve_left nofun) hf s.arg.toNat s.mem
  | flush he hf ht =>
    subst he ht
    exact .flush hfill hf s.mem
  | encode tl ops b ws he hp hr ht =>
    subst he ht
    have hc : s.bw.Clean := hclean.resolve_left nofun
    obtain ⟨front, v, w, b', ws', rfl, hv, _, hfront, hadd, hflush, hend⟩ := runOps_plan_ok hp hr
    cases hend
    have hbits : commandBits (.encode tl) s = streamBits front ++ (fieldBits v w ++ []) := by
      simp only [commandBits, hp, streamBits_append, streamBits]
    have hrun := Appends.of_runOps hv hfill hc hfront s.mem
    have hlast := Appends.add (runOps_view_fits hv hfill hc hfront s.mem).1 hadd v (commitWrites s.mem ws')
    have hcommit := Appends.flush (lo := s.bufBase) (hi := s.bufEnd) hlast.fill hflush (commitWrites s.mem ws')
    rw [hbits]
    show Appends _ s.bw s.mem _ (commitWrites s.mem (ws' ++ [_]))
    rw [commitWrites_append]
    exact hrun.trans (hlast.trans hcommit)

/-! ## The stream a machine carries -/

/-- The mapping of 20_memory.md R55 as one statement about the view of the stream. -/
theorem carries_iff {base : Word} {stream : List Bool} {s : State} :
    Carries base stream s ↔ base.toNat ≤ s.bw.cursor.toNat ∧ s.bw.fill.toNat ≤ 32 ∧
      streamPos s.bw = 8 * base.toNat + stream.length ∧
      ∀ p < stream.length, streamView s.bw s.mem (8 * base.toNat + p) = stream[p]? := by
  unfold streamPos streamView
  constructor
  · rintro ⟨hcursor, hfill, hlength, hcommitted, hheld⟩
    refine ⟨hcursor, hfill, by omega, fun p hp => ?_⟩
    split
    · rw [← memoryBit_base]
      exact hcommitted p (by omega)
    · have hq := hheld (p - 8 * (s.bw.cursor.toNat - base.toNat)) (by omega)
      rw [show 8 * (s.bw.cursor.toNat - base.toNat) + (p - 8 * (s.bw.cursor.toNat - base.toNat)) = p by omega] at hq
      rw [← hq]
      congr 2
      omega
  · rintro ⟨hcursor, hfill, hpos, hview⟩
    refine ⟨hcursor, hfill, by omega, fun p hp => ?_, fun q hq => ?_⟩
    · have hp' := hview p (by omega)
      rwa [if_pos (by omega), ← memoryBit_base] at hp'
    · have hq' := hview (8 * (s.bw.cursor.toNat - base.toNat) + q) (by omega)
      rw [if_neg (by omega)] at hq'
      rw [← hq']
      congr 2
      omega

theorem Carries.append {base : Word} {stream bits : List Bool} {s t : State} (hs : Carries base stream s)
    (h : Appends bits s.bw s.mem t.bw t.mem) : Carries base (stream ++ bits) t := by
  obtain ⟨hcursor, _, hpos, hview⟩ := carries_iff.mp hs
  have hpos' := h.pos
  refine carries_iff.mpr ⟨hcursor.trans h.cursor, h.fill, ?_, fun p hp => ?_⟩
  · rw [List.length_append]
    omega
  · rw [List.length_append] at hp
    rcases Nat.lt_or_ge p stream.length with hlt | hge
    · rw [h.below _ (by omega), hview p hlt, List.getElem?_append_left hlt]
    · have hnew := h.new (p - stream.length) (by omega)
      rw [hpos, show 8 * base.toNat + stream.length + (p - stream.length) = 8 * base.toNat + p by omega] at hnew
      rw [hnew, List.getElem?_append_right hge]

/-- Settles O58: the command appends its bits to the view of the stream, and where it ends with a flush the bits left in
ACC have been stored too. -/
theorem streamToMemoryMapping : Obligations.StreamToMemoryMapping := by
  intro base stream i s t hi hs hclean h hok
  have hends := exec_next h
  exact ⟨hs.append (hends.appends hi hs.fill hclean hok), fun hflush => (hends.justFlushed hflush hok).held hs.fill⟩

/-- Settles O57: INIT's BitWriter holds no bit, at BUF_BASE. -/
theorem initStartsTheStream : Obligations.InitStartsTheStream := by
  intro s t h
  rw [exec_init] at h
  cases h
  exact ⟨carries_iff.mpr ⟨le_rfl, Nat.zero_le 32, rfl, nofun⟩, clean_empty s.bufBase⟩

/-! ## The observation at the end of a run -/

theorem observe_bytes_get {base : Word} {s : State} {k : Nat}
    (hk : k < s.bw.cursor.toNat - base.toNat + (s.bw.fill.toNat + 7) / 8) :
    (observe base s).bytes[k]? = some (readByte s.mem (base.toNat + k)) := by
  simp only [observe, List.getElem?_map, List.getElem?_range hk, Option.map_some]

/-- Settles O59: the observed bytes are memory's from `base` to the end of the stream, and memory holds all of the stream
there. -/
theorem endOfRunObservation : Obligations.EndOfRunObservation := by
  intro base stream s hs hheld
  have hlength := hs.length
  obtain ⟨hcursor, _, hpos, hview⟩ := carries_iff.mp hs
  refine ⟨hlength.symm, ?_, fun p hp => ?_⟩
  · simp only [observe, List.length_map, List.length_range]
    omega
  · have hbit : memoryBit s.mem base.toNat p = stream[p]? := by
      rw [memoryBit_base, hheld.memoryBit_eq_view (by omega), hview p hp]
    rw [observe_bytes_get (by omega)]
    exact hbit

end Sys2Proof.Machine

/-! Every command: it ends, what it never writes, and what it does not depend on. -/

namespace Sys2Proof.Machine

/-! ## Where commands write -/

/-- The BitWriter, output memory and STATUS are all a command writes (10_state.md R24 to R27). -/
theorem Ends.frame {i : Instr} {s t : State} (h : Ends i s t) : t = ((s.setMem t.mem).setBw t.bw).setStatus t.status := by
  cases h with
  | init _ ht | error _ _ _ ht | addbits _ _ _ _ ht | flush _ _ ht | encode _ _ _ _ _ _ _ ht =>
    subst ht
    rfl

/-- Settles O35: a command's frame keeps all these fields. -/
theorem noCommandWritesWhatTheHostWrites : Obligations.NoCommandWritesWhatTheHostWrites := by
  intro i s t h
  rw [(exec_next h).frame]
  exact ⟨rfl, rfl, rfl, rfl, rfl, rfl, rfl, rfl⟩

/-- Settles O36: each write of a command has passed the check that its four bytes lie in the buffer. -/
theorem noCommandWritesOutsideTheBuffer : Obligations.NoCommandWritesOutsideTheBuffer := by
  intro i s t h a ha
  cases exec_next h with
  | init _ ht | error _ _ _ ht | addbits _ _ _ _ ht =>
    subst ht
    rfl
  | flush he hf ht =>
    subst he ht
    have hout : a < s.bufBase.toNat ∨ s.bufEnd.toNat ≤ a := by simpa using ha
    obtain ⟨hlo, hhi⟩ := hf
    exact (readByte_memWrite4 _ _ _ a).trans (if_neg (by omega))
  | encode tl ops b ws he _ hr ht =>
    subst he ht
    have hout : a < s.bufBase.toNat ∨ s.bufEnd.toNat ≤ a := by simpa using ha
    refine readByte_commitWrites_of_outside (fun p hp => ?_) s.mem
    obtain ⟨hlo, hhi⟩ := runOps_writes_fit hr p hp
    omega

/-- Apart from INIT no command writes below CURSOR (70_reset_and_hazards.md R203). -/
theorem Ends.readByte_below_cursor {i : Instr} {s t : State} (h : Ends i s t) (hi : i ≠ .init)
    (hfill : s.bw.fill.toNat ≤ 32) {a : Nat} (ha : a < s.bw.cursor.toNat) : readByte t.mem a = readByte s.mem a := by
  cases h with
  | init he => exact absurd he hi
  | error _ _ _ ht | addbits _ _ _ _ ht =>
    subst ht
    rfl
  | flush _ _ ht =>
    subst ht
    exact (readByte_memWrite4 _ _ _ a).trans (if_neg (by omega))
  | encode tl ops b ws _ _ hr ht =>
    subst ht
    refine readByte_commitWrites_of_outside (fun p hp => ?_) s.mem
    have hcursor := (runOps_cursor hfill hr).2.2 p hp
    omega

/-! ## CURSOR -/

/-- A run that moves CURSOR leaves it inside the four bytes of its last flush, so at or below BUF_END
(20_memory.md R57). -/
theorem runOps_cursor_le {policy : OverwidePolicy} {lo hi : Word} {ops : List BwOp} {b : BitWriter}
    {r : BitWriter × List (Word × Word)} (hb : b.fill.toNat ≤ 32) (h : runOps policy lo hi ops b = .ok r) :
    r.1.cursor = b.cursor ∨ r.1.cursor.toNat ≤ hi.toNat := by
  induction ops generalizing b r with
  | nil =>
    cases h
    exact .inl rfl
  | cons op ops ih =>
    cases op with
    | add v w =>
      obtain ⟨hf, hr⟩ := runOps_add_ok h
      exact ih (b := bwAdd b (applyPolicy policy v w) w) ((bwAdd_fill hf _).trans_le hf) hr
    | flush =>
      obtain ⟨hf, ws, hr, _⟩ := runOps_flush_ok h
      rcases ih (r := (r.1, ws)) (by rw [bwFlush_fill]; omega) hr with heq | hle
      · right
        have hcursor := bwFlush_cursor hb hf
        obtain ⟨_, hhi⟩ := hf
        rw [show r.1.cursor = (bwFlush b).cursor from heq]
        omega
      · exact .inr hle

/-- FLUSH as a trial run of one operation. -/
theorem runOps_flush {lo hi : Word} {b : BitWriter} (h : FlushFits lo hi b.cursor) (policy : OverwidePolicy) :
    runOps policy lo hi [.flush] b = .ok (bwFlush b, [(b.cursor, b.acc)]) := by
  rw [runOps, if_neg (not_not.mpr h), runOps]

/-- Settles O37: a trial run moves CURSOR forward only and below BUF_END, and FLUSH is such a run. -/
theorem cursorOnlyMovesForward : Obligations.CursorOnlyMovesForward := by
  intro i s t hi hfill h
  cases exec_next h with
  | init he => exact absurd he hi
  | error _ _ _ ht | addbits _ _ _ _ ht =>
    subst ht
    exact ⟨le_rfl, fun hne => absurd rfl hne⟩
  | flush _ hf ht =>
    subst ht
    have hr := runOps_flush hf overwidePolicy
    exact ⟨(runOps_cursor hfill hr).2.1, (runOps_cursor_le hfill hr).resolve_left⟩
  | encode tl ops b ws _ _ hr ht =>
    subst ht
    exact ⟨(runOps_cursor hfill hr).2.1, (runOps_cursor_le hfill hr).resolve_left⟩

/-! ## Committed bits -/

/-- Apart from INIT no command changes a bit of the stream, nor takes one from it. -/
theorem Ends.view_below {i : Instr} {s t : State} (h : Ends i s t) (hi : i ≠ .init) (hfill : s.bw.fill.toNat ≤ 32) :
    streamPos s.bw ≤ streamPos t.bw ∧
      ∀ p < streamPos s.bw, streamView t.bw t.mem p = streamView s.bw s.mem p := by
  cases h with
  | init he => exact absurd he hi
  | error _ _ _ ht =>
    subst ht
    exact ⟨le_rfl, fun _ _ => rfl⟩
  | addbits width _ hf _ ht =>
    subst ht
    exact ⟨(streamPos_bwAdd hf _).ge.trans' (Nat.le_add_right _ _),
      fun p hp => (streamView_bwAdd _ _ _ _ p).trans (if_pos hp)⟩
  | flush _ hf ht =>
    subst ht
    exact ⟨(streamPos_bwFlush hfill hf).ge, fun p _ => streamView_bwFlush hfill hf s.mem p⟩
  | encode tl ops b ws _ _ hr ht =>
    subst ht
    exact ⟨(runOps_pos hfill hr).ge.trans' (Nat.le_add_right _ _),
      fun p hp => runOps_view_below hfill hr s.mem hp⟩

/-- Apart from INIT a command that writes memory has just flushed. -/
theorem Ends.mem_eq_or_justFlushed {i : Instr} {s t : State} (h : Ends i s t) (hi : i ≠ .init) :
    t.mem = s.mem ∨ JustFlushed s t := by
  cases h with
  | init he => exact absurd he hi
  | error _ _ _ ht | addbits _ _ _ _ ht =>
    subst ht
    exact .inl rfl
  | flush he hf ht =>
    exact .inr (Ends.justFlushed (.flush he hf ht) (.inl he) (ht ▸ rfl))
  | encode tl ops b ws he hp hr ht =>
    exact .inr (Ends.justFlushed (.encode tl ops b ws he hp hr ht) (.inr ⟨tl, he⟩) (ht ▸ rfl))

/-- Settles O38: nothing is written below CURSOR, and after a flush memory holds the stream, in which no bit has changed. -/
theorem committedBitsAreFinal : Obligations.CommittedBitsAreFinal := by
  intro i s t hi hfill h
  have hends := exec_next h
  refine ⟨fun a ha => hends.readByte_below_cursor hi hfill ha, fun hheld q hq => ?_⟩
  rcases hends.mem_eq_or_justFlushed hi with hmem | hflushed
  · rw [hmem]
    exact hheld q hq
  · obtain ⟨hpos, hview⟩ := hends.view_below hi hfill
    have hp : 8 * s.bw.cursor.toNat + q < streamPos s.bw := Nat.add_lt_add_left hq _
    rw [memoryBit_base, (hflushed.held hfill).memoryBit_eq_view (hp.trans_le hpos), hview _ hp, streamView,
      if_neg (Nat.not_lt.mpr (Nat.le_add_right _ _)), Nat.add_sub_cancel_left]

/-! ## STATUS on entry -/

/-- What a command but INIT does and ends with is the same whatever STATUS it finds; only STICKY is passed on
(60_exceptions.md R170, R180). -/
theorem exec_whatever_status {i : Instr} (hi : i ≠ .init) (s : State) :
    ∃ u code, ∀ st, exec i (s.setStatus st) = .next (State.setStatus u (statusAfter st code)) := by
  cases i with
  | init => exact absurd rfl hi
  | addbits width =>
    by_cases hf : AddFits s.bw width
    · rcases Nat.lt_or_ge s.arg.toNat (2 ^ width) with hv | hv
      · refine ⟨s.setBw (bwAdd s.bw s.arg.toNat width), .ok, fun st => ?_⟩
        rw [statusAfter_ok]
        exact exec_addbits_of_fits (s := s.setStatus st) hf hv
      · refine ⟨s, .valueTooWide, fun st => ?_⟩
        rw [statusAfter_error (by decide)]
        exact exec_addbits_of_too_wide (s := s.setStatus st) hf hv
    · refine ⟨s, .registerOverflow, fun st => ?_⟩
      rw [statusAfter_error (by decide)]
      exact exec_addbits_of_not_fits (s := s.setStatus st) hf
  | flush =>
    by_cases hf : FlushFits s.bufBase s.bufEnd s.bw.cursor
    · refine ⟨(s.setMem (memWrite4 s.mem s.bw.cursor.toNat s.bw.acc)).setBw (bwFlush s.bw), .ok, fun st => ?_⟩
      rw [statusAfter_ok]
      exact exec_flush_of_fits (s := s.setStatus st) hf
    · refine ⟨s, .bufferTooSmall, fun st => ?_⟩
      rw [statusAfter_error (by decide)]
      exact exec_flush_of_not_fits (s := s.setStatus st) hf
  | encode tl =>
    have htrial (st : Status) : encodeTrial overwidePolicy tl (s.setStatus st) = encodeTrial overwidePolicy tl s := rfl
    show ∃ u code, ∀ st, encodeUnder overwidePolicy tl (s.setStatus st) = _
    simp only [encodeUnder, htrial]
    cases encodeTrial overwidePolicy tl s with
    | error code => exact ⟨s, code, fun _ => rfl⟩
    | ok r => exact ⟨commitTrial s r, .ok, fun _ => rfl⟩

/-- Settles O39: INIT sets STATUS anew, and the others end alike from any STATUS, an error or STICKY before it keeping
STICKY. -/
theorem commandsRunTheSameWhateverStatus : Obligations.CommandsRunTheSameWhateverStatus := by
  intro i s t st h
  by_cases hi : i = .init
  · subst hi
    rw [exec_init] at h
    cases h
    exact ⟨⟨.ok, false⟩, rfl, rfl, fun _ hne => absurd rfl hne⟩
  · obtain ⟨u, code, hrun⟩ := exec_whatever_status hi s
    have hself := hrun s.status
    rw [setStatus_self, h] at hself
    cases hself
    refine ⟨statusAfter st code, hrun st, rfl, fun hst _ => ?_⟩
    rw [statusAfter, hst, Bool.true_or]

/-! ## Where no flush fits -/

/-- Settles O40: outside the window the check on a flush fails, FLUSH's own and the first of an ENCODE. -/
theorem noFlushOutsideTheWindow : Obligations.NoFlushOutsideTheWindow :=
  fun _ h => noFlushSucceeds_of_not_fits fun ⟨hlo, hhi⟩ => by omega

/-! ## Bounds -/

theorem coverage_ge_of_valid {entry : Nat → Int} {n : Nat} (hv : ∀ i < n, ValidCount (entry i)) :
    n ≤ coverage entry n := by
  induction n with
  | zero => exact Nat.zero_le _
  | succ n ih =>
    have hprev := ih fun i hi => hv i (by omega)
    have hlast := natAbs_pos_of_valid (hv n (Nat.lt_succ_self n))
    rw [coverage_succ]
    omega

/-- A scan reads fewer entries than `2^tl`, since each has lowered the deficit (41_ncount_encoder.md R145). -/
theorem ScanReaches.lt {entry : Nat → Int} {tl i : Nat} (h : ScanReaches entry tl i) : i < 2 ^ tl :=
  (coverage_ge_of_valid h.valid).trans_lt h.deficit

theorem plan_length (entry : Nat → Int) (tl n : Nat) (mode : Mode) : (plan entry tl n mode).length = 2 + 2 * n := by
  simp only [plan_eq, List.length_cons, List.length_flatMap, entryOps, List.length_nil, List.map_const',
    List.sum_replicate, List.length_range, smul_eq_mul]
  omega

theorem encodePlan_length_le {tl : Nat} {s : State} {ops : List BwOp} (h : encodePlan tl s = .ok ops) :
    ops.length ≤ 2 + 2 ^ (tl + 1) := by
  obtain ⟨_, _, n, m, _, _, hT, _, rfl⟩ := encodePlan_ok h
  have hn := hT.length_le
  rw [plan_length, pow_succ]
  omega

/-- Settles O32: each command's ends are next states, a plan has two operations for each of at most `2^tl` entries, and
the scan stops before `2^tl` entries are read. -/
theorem everyCommandEndsInANextState : Obligations.EveryCommandEndsInANextState := by
  refine ⟨fun i s => ?_, fun tl s ops hp => ⟨encodePlan_length_le hp, ?_⟩, fun entry entry' limit tl hagree => ?_⟩
  · obtain ⟨t, ht, _⟩ := exec_ends i s
    exact ⟨t, ht⟩
  · obtain ⟨_, htl, _⟩ := encodePlan_ok hp
    have hpow : 2 ^ (tl + 1) ≤ 2 ^ 9 := Nat.pow_le_pow_right Nat.two_pos (by omega)
    omega
  · exact (scan_congr fun i hi hreach => hagree i (lt_min hi hreach.lt)).symm

end Sys2Proof.Machine

/-! The BitWriter: flushes repeated, adds flushed one by one or together, and a bit added to a stray one. -/

namespace Sys2Proof.Machine

/-! ## FLUSH repeated -/

theorem exec_flush_ok {s t : State} (h : exec .flush s = .next t) (hok : t.status.result = .ok) :
    FlushFits s.bufBase s.bufEnd s.bw.cursor ∧ t.bw = bwFlush s.bw ∧
      t.mem = memWrite4 s.mem s.bw.cursor.toNat s.bw.acc := by
  by_cases hf : FlushFits s.bufBase s.bufEnd s.bw.cursor
  · rw [exec_flush_of_fits hf] at h
    cases h
    exact ⟨hf, rfl, rfl⟩
  · rw [exec_flush_of_not_fits hf] at h
    cases h
    cases hok

/-- Settles O28: the flush of a flushed BitWriter is itself, and its write is the four-byte write of ACC. -/
theorem secondFlushKeepsTheBitWriter : Obligations.SecondFlushKeepsTheBitWriter := by
  intro s t u ht htok hu huok
  obtain ⟨_, htbw, _⟩ := exec_flush_ok ht htok
  obtain ⟨_, hubw, humem⟩ := exec_flush_ok hu huok
  obtain ⟨hbytes, hframe, _⟩ := memWriteStoresFourLittleEndianBytes.1 t.mem t.bw.cursor.toNat t.bw.acc
  rw [← humem] at hbytes hframe
  refine ⟨((exec_next ht).justFlushed (.inl rfl) htok).fill_le, ?_, hbytes, hframe⟩
  rw [hubw, htbw, bwFlush_idempotent]

/-! ## Six bits at FILL 5 -/

/-- Settles O29: the add makes 11 bits of which the flush commits 8, and ARG's upper 3 stay in ACC. -/
theorem sixBitsAtFillFiveSplit : Obligations.SixBitsAtFillFiveSplit := by
  intro s hfill hacc harg hlo hhi
  have hadd : AddFits s.bw 6 := by rw [AddFits, hfill]; decide
  have hflush : FlushFits s.bufBase s.bufEnd (bwAdd s.bw s.arg.toNat 6).cursor := ⟨hlo, hhi⟩
  have hfill' : (bwAdd s.bw s.arg.toNat 6).fill.toNat = 11 := by rw [bwAdd_fill hadd, hfill]
  have hacc' : (bwAdd s.bw s.arg.toNat 6).acc.toNat = s.bw.acc.toNat ||| s.arg.toNat * 2 ^ 5 := by
    rw [bwAdd_acc_toNat hadd harg, hfill]
  refine ⟨_, _, exec_addbits_of_fits hadd harg, exec_flush_of_fits hflush, rfl, ?_, ?_, ?_, ?_⟩
  · show Option.map BitVec.toNat (readByte (memWrite4 s.mem s.bw.cursor.toNat (bwAdd s.bw s.arg.toNat 6).acc) _) = _
    rw [readByte_memWrite4, if_pos (by omega), Option.map_some, byteOf_toNat, hacc', Nat.sub_self, Nat.mul_zero,
      Nat.pow_zero, Nat.div_one]
  · show (bwFlush (bwAdd s.bw s.arg.toNat 6)).cursor.toNat = _
    rw [bwFlush_cursor (by omega) hflush, hfill', bwAdd_cursor]
  · show (bwFlush (bwAdd s.bw s.arg.toNat 6)).fill.toNat = _
    rw [bwFlush_fill, hfill']
  · show (bwFlush (bwAdd s.bw s.arg.toNat 6)).acc.toNat = _
    rw [bwFlush_acc_toNat, hfill', hacc', Nat.or_div_two_pow, Nat.div_eq_of_lt (by omega), Nat.zero_or]
    omega

/-! ## A bit added to a stray one -/

/-- Settles O31: an add is an OR, so a 1 in ACC stays, and the width makes it valid. -/
theorem appendedBitMergesWithTheStrayBit : Obligations.AppendedBitMergesWithTheStrayBit := by
  intro s t width hwidth hstray h hok
  cases exec_next h with
  | error _ _ hc ht =>
    subst ht
    exact absurd hok hc
  | addbits w he hf _ ht =>
    cases he
    subst ht
    refine ⟨?_, (bwAdd_acc_bit _ _ _ _).trans ?_⟩
    · show s.bw.fill.toNat < (bwAdd s.bw s.arg.toNat width).fill.toNat
      rw [bwAdd_fill hf]
      omega
    · rw [hstray, Bool.true_or]
  | init he | flush he | encode _ _ _ _ he => cases he

/-! ## What a run of fitting fields makes of the stream -/

/-- The view of the stream with `v` added at `pos`. -/
def viewAdd (view : Nat → Option Bool) (pos v : Nat) : Nat → Option Bool :=
  fun p => (view p).map (· || (decide (pos ≤ p) && v.testBit (p - pos)))

/-- The view after operations, from the view before them and the position they start at. Flushes leave it alone. -/
def viewAfter : List BwOp → Nat → (Nat → Option Bool) → Nat → Option Bool
  | [], _, view => view
  | .add v w :: ops, pos, view => viewAfter ops (pos + w) (viewAdd view pos v)
  | .flush :: ops, pos, view => viewAfter ops pos view

theorem streamView_bwAdd_eq_viewAdd {b : BitWriter} {v w : Nat} (hf : AddFits b w) (hv : v < 2 ^ w) (m : Memory) :
    streamView (bwAdd b v w) m = viewAdd (streamView b m) (streamPos b) v := by
  have hroom : b.fill.toNat + w ≤ 32 := hf
  funext p
  rw [streamView_bwAdd, viewAdd]
  by_cases hp : p < streamPos b
  · rw [if_pos hp, decide_eq_false (Nat.not_le.mpr hp)]
    simp
  · have hview : streamView b m p = some (b.acc.getLsbD (p - 8 * b.cursor.toNat)) :=
      if_neg (by unfold streamPos at hp; omega)
    rw [if_neg hp, hview, Option.map_some, decide_eq_true (Nat.le_of_not_lt hp), Bool.true_and]
    by_cases h32 : p - 8 * b.cursor.toNat < 32
    · rw [decide_eq_true h32, Bool.true_and]
    · have hbit : v.testBit (p - streamPos b) = false :=
        Nat.testBit_lt_two_pow (hv.trans_le (Nat.pow_le_pow_right Nat.two_pos (by unfold streamPos; omega)))
      rw [hbit, Bool.and_false]

/-- A run of fitting fields, from any ACC: the view it leaves depends on the view before it, not on where its flushes
stand. -/
theorem runOps_view {policy : OverwidePolicy} {lo hi : Word} {ops : List BwOp} {b : BitWriter}
    {r : BitWriter × List (Word × Word)} (hv : ∀ v w, BwOp.add v w ∈ ops → v < 2 ^ w) (hb : b.fill.toNat ≤ 32)
    (h : runOps policy lo hi ops b = .ok r) (m : Memory) :
    streamView r.1 (commitWrites m r.2) = viewAfter ops (streamPos b) (streamView b m) := by
  induction ops generalizing b r m with
  | nil =>
    cases h
    rfl
  | cons op ops ih =>
    have hv' : ∀ v w, BwOp.add v w ∈ ops → v < 2 ^ w := fun v w ho => hv v w (List.mem_cons_of_mem _ ho)
    cases op with
    | add v w =>
      obtain ⟨hf, hr⟩ := runOps_add_ok h
      have hvw := hv v w List.mem_cons_self
      rw [applyPolicy_of_fits policy hvw] at hr
      rw [ih hv' ((bwAdd_fill hf v).trans_le hf) hr m, viewAfter, streamPos_bwAdd hf,
        streamView_bwAdd_eq_viewAdd hf hvw]
    | flush =>
      obtain ⟨hf, ws, hr, hws⟩ := runOps_flush_ok h
      have hview := ih (r := (r.1, ws)) hv' (by rw [bwFlush_fill]; omega) hr (memWrite4 m b.cursor.toNat b.acc)
      rw [streamPos_bwFlush hb hf, funext (streamView_bwFlush hb hf m)] at hview
      rw [hws, commitWrites_cons, viewAfter]
      exact hview

/-! ## Adds flushed one by one or together -/

/-- The fields' adds, each followed by a flush. -/
def flushEach (fields : List (Nat × Nat)) : List BwOp := fields.flatMap fun f => [.add f.1 f.2, .flush]

/-- The fields' adds, followed by one flush. -/
def flushOnce (fields : List (Nat × Nat)) : List BwOp := fields.map (fun f => .add f.1 f.2) ++ [.flush]

theorem viewAfter_flushEach (fields : List (Nat × Nat)) (pos : Nat) (view : Nat → Option Bool) :
    viewAfter (flushEach fields) pos view = viewAfter (flushOnce fields) pos view := by
  induction fields generalizing pos view with
  | nil => rfl
  | cons f fields ih => exact ih (pos + f.2) (viewAdd view pos f.1)

theorem streamBits_flushEach (fields : List (Nat × Nat)) :
    streamBits (flushEach fields) = streamBits (flushOnce fields) := by
  induction fields with
  | nil => rfl
  | cons f fields ih => exact congrArg (fieldBits f.1 f.2 ++ ·) ih

theorem fits_of_mem_flushEach {fields : List (Nat × Nat)} (h : ∀ f ∈ fields, f.1 < 2 ^ f.2) (v w : Nat)
    (hm : BwOp.add v w ∈ flushEach fields) : v < 2 ^ w := by
  obtain ⟨f, hf, hop⟩ := List.mem_flatMap.mp hm
  simp only [List.mem_cons, BwOp.add.injEq, reduceCtorEq, List.not_mem_nil, or_false] at hop
  obtain ⟨rfl, rfl⟩ := hop
  exact h f hf

theorem fits_of_mem_flushOnce {fields : List (Nat × Nat)} (h : ∀ f ∈ fields, f.1 < 2 ^ f.2) (v w : Nat)
    (hm : BwOp.add v w ∈ flushOnce fields) : v < 2 ^ w := by
  simp only [flushOnce, List.mem_append, List.mem_map, BwOp.add.injEq, List.mem_singleton, reduceCtorEq, or_false] at hm
  obtain ⟨f, hf, rfl, rfl⟩ := hm
  exact h f hf

theorem flushEach_ends_with_flush {fields : List (Nat × Nat)} (h : fields ≠ []) :
    ∃ ops, flushEach fields = ops ++ [.flush] := by
  refine ⟨flushEach fields.dropLast ++ [.add (fields.getLast h).1 (fields.getLast h).2], ?_⟩
  conv_lhs => rw [← List.dropLast_append_getLast h]
  simp [flushEach]

/-- A run that ends with a flush leaves fewer than 8 bits in ACC. -/
theorem runOps_fill_of_flush_last {policy : OverwidePolicy} {lo hi : Word} {ops : List BwOp} {b : BitWriter}
    {r : BitWriter × List (Word × Word)} (h : runOps policy lo hi (ops ++ [.flush]) b = .ok r) : r.1.fill.toNat < 8 := by
  obtain ⟨r₁, r₂, _, hflush, rfl⟩ := runOps_append_ok h
  obtain ⟨_, ws, hend, _⟩ := runOps_flush_ok hflush
  have hr : bwFlush r₁.1 = r₂.1 := congrArg Prod.fst (Except.ok.inj hend)
  rw [← hr, bwFlush_fill]
  omega

/-- Fewer than 8 bits in ACC: the view and its end say what the BitWriter holds. -/
theorem bitWriter_eq_of_view {b₁ b₂ : BitWriter} {m₁ m₂ : Memory} (h₁ : b₁.fill.toNat < 8) (h₂ : b₂.fill.toNat < 8)
    (hpos : streamPos b₁ = streamPos b₂) (hview : streamView b₁ m₁ = streamView b₂ m₂) : b₁ = b₂ := by
  unfold streamPos at hpos
  have hcursor : b₁.cursor = b₂.cursor := BitVec.eq_of_toNat_eq (by omega)
  have hfill : b₁.fill = b₂.fill := BitVec.eq_of_toNat_eq (by omega)
  have hacc : b₁.acc = b₂.acc := BitVec.eq_of_getLsbD_eq fun q _ => by
    have hq := congrFun hview (8 * b₁.cursor.toNat + q)
    rw [streamView, streamView, ← hcursor, if_neg (by omega), if_neg (by omega), Nat.add_sub_cancel_left] at hq
    exact Option.some.inj hq
  obtain ⟨acc, fill, cursor⟩ := b₁
  cases hcursor
  cases hfill
  cases hacc
  rfl

theorem memoryBit_of_lt (m : Memory) (a : Nat) {q : Nat} (hq : q < 8) :
    memoryBit m a q = (readByte m a).map (·.getLsbD q) := by
  rw [memoryBit, Nat.div_eq_of_lt hq, Nat.mod_eq_of_lt hq, Nat.add_zero]

/-- Two memories that agree on a byte's bits agree on the byte. -/
theorem readByte_eq_of_bits {m₁ m₂ : Memory} {a : Nat} (h : ∀ q < 8, memoryBit m₁ a q = memoryBit m₂ a q) :
    readByte m₁ a = readByte m₂ a := by
  have hbits (q : Nat) (hq : q < 8) : (readByte m₁ a).map (·.getLsbD q) = (readByte m₂ a).map (·.getLsbD q) := by
    rw [← memoryBit_of_lt m₁ a hq, ← memoryBit_of_lt m₂ a hq, h q hq]
  have hbit₀ := hbits 0 (by decide)
  cases h₁ : readByte m₁ a with
  | none =>
    rw [h₁, Option.map_none] at hbit₀
    exact (Option.map_eq_none_iff.mp hbit₀.symm).symm
  | some x =>
    cases h₂ : readByte m₂ a with
    | none => simp [h₁, h₂] at hbit₀
    | some y =>
      rw [h₁, h₂] at hbits
      exact congrArg some (BitVec.eq_of_getLsbD_eq fun q hq => Option.some.inj (hbits q hq))

/-- Settles O30: both runs leave the same view of the stream, with its end at the same position, and each ends with a
flush, so they leave the same BitWriter state and the same bytes below CURSOR. -/
theorem flushingEachAddEqualsFlushingOnce : Obligations.FlushingEachAddEqualsFlushingOnce := by
  intro policy lo hi fields b b₁ b₂ ws₁ ws₂ hne hfits hsum h₁ h₂
  have hb : b.fill.toNat ≤ 32 := by omega
  obtain ⟨ops, hops⟩ := flushEach_ends_with_flush hne
  have hfill₁ := runOps_fill_of_flush_last (hops ▸ h₁ : runOps policy lo hi (ops ++ [.flush]) b = .ok (b₁, ws₁))
  have hfill₂ := runOps_fill_of_flush_last h₂
  have hpos : streamPos b₁ = streamPos b₂ := by
    rw [runOps_pos (r := (b₁, ws₁)) hb h₁, runOps_pos (r := (b₂, ws₂)) hb h₂]
    exact congrArg (fun bits => streamPos b + bits.length) (streamBits_flushEach fields)
  have hview (m : Memory) : streamView b₁ (commitWrites m ws₁) = streamView b₂ (commitWrites m ws₂) := by
    have hv₁ := runOps_view (fits_of_mem_flushEach hfits) hb h₁ m
    have hv₂ := runOps_view (fits_of_mem_flushOnce hfits) hb h₂ m
    rw [hv₁, hv₂, viewAfter_flushEach]
  obtain rfl : b₁ = b₂ := bitWriter_eq_of_view (m₁ := commitWrites [] ws₁) hfill₁ hfill₂ hpos (hview [])
  refine ⟨rfl, fun m a _ ha => readByte_eq_of_bits fun q hq => ?_⟩
  have hbit := congrFun (hview m) (8 * a + q)
  rwa [streamView, streamView, if_pos (by omega), if_pos (by omega), ← memoryBit_base, ← memoryBit_base] at hbit

end Sys2Proof.Machine

/-! Host accesses: commands issued, memory and entries read and written, and the register window. -/

namespace Sys2Proof.Machine

/-! ## A CMD write -/

/-- A CMD write runs what its word stands for (10_state.md R22). -/
theorem step_cmdWrite {s : State} {rest : List HostAccess} {w : Word} (h : s.pending = cmdWrite w :: rest) :
    step s = runCommand w (s.takeAccess rest) :=
  step_regWrite_register .cmd h

theorem runCommand_of_decode {w : Word} {i : Instr} (h : decode w = .ok i) (s : State) : runCommand w s = exec i s := by
  rw [runCommand, h]

theorem tableWord_toNat (w : Word) : tableWord 32 w.toNat = some w := by
  have hlt : w.toNat < 2 ^ 32 := w.isLt
  rw [tableWord, Nat.mod_eq_of_lt hlt, if_pos hlt, BitVec.ofNat_toNat, BitVec.setWidth_eq]

theorem withFetchWord_eq (s : State) (w : Word) : s.withFetchWord 32 w.toNat = s.putAccess (cmdWrite w) := by
  rw [State.withFetchWord, tableWord_toNat]

/-- Settles O8: CMD's write is the command's run, and `withFetchWord` puts such a write at the head of the queue. -/
theorem stepRunsTheDecodedCommand : Obligations.StepRunsTheDecodedCommand := by
  intro s rest w
  refine ⟨fun h i hi => ?_, fun h e he => ?_, step_regRead_register .cmd, fun i hi => ?_⟩
  · rw [step_cmdWrite h, runCommand_of_decode hi]
  · exact step_cmdWrite_illegal (fun i hi => nomatch he.symm.trans hi) h
  · rw [withFetchWord_eq, step_cmdWrite (rest := s.pending) rfl, runCommand_of_decode hi]
    rfl

/-! ## Accesses that stop the machine -/

section Access
variable {s : State} {rest : List HostAccess} {bytes n a i : Nat} {v : Word} {b : Byte}

theorem step_regWrite_noSuchOffset (h : s.pending = .regWrite bytes n v :: rest) (hn : registerSpaceSize ≤ n) :
    step s = .fault (.noSuchOffset n) := by
  rw [step_of_pending h, performAccess, if_pos hn]

theorem step_regRead_noSuchOffset (h : s.pending = .regRead bytes n :: rest) (hn : registerSpaceSize ≤ n) :
    step s = .fault (.noSuchOffset n) := by
  rw [step_of_pending h, performAccess, if_pos hn]

theorem step_memWrite_noSuchAddress (h : s.pending = .memWrite n b :: rest) (hn : addressSpaceSize ≤ n) :
    step s = .fault (.noSuchAddress n) := by
  rw [step_of_pending h, performAccess, if_pos hn]

theorem step_memRead_noSuchAddress (h : s.pending = .memRead n :: rest) (hn : addressSpaceSize ≤ n) :
    step s = .fault (.noSuchAddress n) := by
  rw [step_of_pending h, performAccess, if_pos hn]

theorem step_foreignAccess (h : s.pending = .foreignAccess :: rest) : step s = .refused .exclusiveUseBroken := by
  rw [step_of_pending h, performAccess]

/-! ## Output memory and the entry source -/

theorem step_memWrite (h : s.pending = .memWrite a b :: rest) (ha : a < addressSpaceSize) :
    step s = .next ((s.takeAccess rest).setMem (writeByte s.mem a b)) := by
  rw [step_of_pending h, performAccess, if_neg (Nat.not_le.mpr ha), takeAccess_mem]

theorem step_memRead (h : s.pending = .memRead a :: rest) (ha : a < addressSpaceSize) (hb : readByte s.mem a = some b) :
    step s = .next ((s.takeAccess rest).respond (.mem a b)) := by
  rw [step_of_pending h, performAccess, if_neg (Nat.not_le.mpr ha), hostByte, takeAccess_mem, hb]

theorem step_supplyEntries {counts : List Word} (h : s.pending = .supplyEntries counts :: rest) :
    step s = .next ((s.takeAccess rest).setEntries counts) := by
  rw [step_of_pending h, performAccess]

theorem step_sourceWrite (h : s.pending = .sourceWrite i v :: rest) :
    step s = .next ((s.takeAccess rest).setEntries (entriesWith (s.takeAccess rest) i v)) := by
  rw [step_of_pending h, performAccess]

theorem step_sourceRead (h : s.pending = .sourceRead i :: rest) :
    step s = .next ((s.takeAccess rest).respond (.entry i (entryWord (s.takeAccess rest) i))) := by
  rw [step_of_pending h, performAccess]

/-- A supplied entry is its word, whatever the access count. -/
theorem entryWord_of_lt (h : i < s.entries.length) : entryWord s i = s.entries[i] := by
  rw [entryWord, List.getElem?_eq_getElem h]

/-- One entry written: it is the new word, and those below it or supplied before keep theirs, whatever happens besides. -/
theorem entryWord_of_entriesWith {u : State} {j : Nat} (hu : u.entries = entriesWith s i v)
    (hj : j < max s.entries.length (i + 1)) : entryWord u j = if j = i then v else entryWord s j := by
  rw [entryWord, hu, entriesWith, List.getElem?_map, List.getElem?_range hj, Option.map_some]

end Access

/-! ## The host accesses' obligations -/

/-- Settles O12: the bounds of the two spaces are the first check of an access. -/
theorem accessesOutsideTheSpacesStop : Obligations.AccessesOutsideTheSpacesStop := by
  intro s rest bytes n v b
  exact ⟨fun hn h => step_regWrite_noSuchOffset h hn, fun hn h => step_regRead_noSuchOffset h hn,
    fun hn h => step_memWrite_noSuchAddress h hn, fun hn h => step_memRead_noSuchAddress h hn, step_foreignAccess⟩

/-- Settles O13: the byte written is the byte listed, so the read returns it, and supplied words are the entries. -/
theorem hostOwnsMemoryAndEntries : Obligations.HostOwnsMemoryAndEntries := by
  intro s rest a b counts ha
  refine ⟨fun h => ?_, fun h => ?_⟩
  · have hbyte : readByte (writeByte s.mem a b) a = some b := by rw [readByte_writeByte, if_pos rfl]
    refine ⟨_, _, step_memWrite h ha, step_memRead (rest := rest) rfl ha hbyte, rfl, rfl, rfl, fun a' hne => ?_⟩
    exact (readByte_writeByte s.mem a b a').trans (if_neg hne.symm)
  · exact ⟨_, step_supplyEntries h, rfl, rfl, rfl, fun i hi => congrArg BitVec.toInt (entryWord_of_lt hi)⟩

/-- Settles O14: after the write every entry up to the written one is supplied, so the read and EntryRead give its word,
and the other supplied ones keep theirs. -/
theorem hostReadsAndWritesSingleEntries : Obligations.HostReadsAndWritesSingleEntries := by
  intro s rest i v
  refine ⟨fun h => ?_, fun hi h => ?_⟩
  · have hword {u : State} (hu : u.entries = entriesWith (s.takeAccess (.sourceRead i :: rest)) i v) :
        entryWord u i = v := by
      rw [entryWord_of_entriesWith hu (by omega), if_pos rfl]
    refine ⟨_, _, step_sourceWrite h, step_sourceRead (rest := rest) rfl, ?_, ?_, fun j hj hne => ?_,
      rfl, rfl, rfl, rfl, rfl, rfl, rfl⟩
    · rw [hword rfl]
      rfl
    · exact congrArg BitVec.toInt (hword rfl)
    · refine congrArg BitVec.toInt ((entryWord_of_entriesWith (s := s.takeAccess _) rfl (lt_max_of_lt_left hj)).trans ?_)
      rw [if_neg hne, entryWord_of_lt hj]
      exact entryWord_of_lt (s := s.takeAccess _) hj
  · rw [step_sourceRead h, entryWord_of_lt (s := s.takeAccess rest) hi]
    rfl

/-- Settles O15: with no access to come a step has nothing to perform. -/
theorem idleBlockKeepsItsState : Obligations.IdleBlockKeepsItsState := by
  intro s h
  rw [step, h]

/-! ## The register window -/

theorem windowOffset_add {base offset : Nat} (h : offset < registerSpaceSize) :
    windowOffset base (base + offset) = some offset := by
  rw [windowOffset, if_pos ⟨Nat.le_add_right _ _, Nat.add_lt_add_left h _⟩, Nat.add_sub_cancel_left]

theorem windowOffset_outside {base a : Nat} (h : a < base ∨ base + registerSpaceSize ≤ a) : windowOffset base a = none := by
  rw [windowOffset, if_neg (by omega)]

/-- Settles O16: an address in the window has its offset there, one outside it none. -/
theorem windowLiesAtRegBase : Obligations.WindowLiesAtRegBase := by
  intro s bytes offset v
  refine ⟨fun h => ?_, fun a h => ?_⟩
  · rw [State.postBusWrite, State.postBusRead, windowOffset_add h]
    exact ⟨rfl, rfl⟩
  · rw [State.postBusWrite, State.postBusRead, windowOffset_outside h]
    exact ⟨rfl, rfl⟩

/-! ## The words STATUS and FILL read as -/

/-- RESULT takes the low four bits of the word and STICKY the next (10_state.md R23). -/
theorem statusWord_toNat (st : Status) :
    (statusWord st).toNat = (resultNumber st.result).toNat + (if st.sticky then 16 else 0) := by
  obtain ⟨result, sticky⟩ := st
  cases sticky <;> cases result <;> rfl

theorem resultNumber_le (code : ResultCode) : (resultNumber code).toNat ≤ 7 := by
  cases code <;> decide

/-- Settles O17: RESULT and STICKY lie in separate bits of the word, and FILL is widened with zeros. -/
theorem statusAndFillReadAsTheirFields : Obligations.StatusAndFillReadAsTheirFields :=
  fun s => ⟨statusWord_toNat s.status, resultNumber_le s.status.result, BitVec.toNat_setWidth_of_le (by decide)⟩

end Sys2Proof.Machine

/-! ENCODE's code: the mode of a table, the widths of its fields, and the stream its plan stands for. -/

namespace Sys2Proof.Machine

/-! ## Modes -/

theorem le_bitlength_iff {n k : Nat} (hn : n ≠ 0) : k ≤ bitlength n ↔ 2 ^ k ≤ n :=
  Nat.le_log2 hn

section SelectMode
variable (tl m : Nat)

theorem selectMode_eq_exact_iff : selectMode tl m = .exact ↔ bitlength (m + 1) + 1 = tl - 1 := by
  unfold selectMode
  split_ifs <;> simp_all

theorem selectMode_eq_overflow_iff : selectMode tl m = .overflow ↔ tl - 1 < bitlength (m + 1) + 1 := by
  unfold selectMode
  split_ifs <;> simp_all

theorem selectMode_eq_underflow_iff : selectMode tl m = .underflow ↔ bitlength (m + 1) + 1 < tl - 1 := by
  unfold selectMode
  split_ifs <;> simp_all <;> omega

end SelectMode

/-- Settles O45: the mode compares `bitlength (m + 1)` with `tl - 2`, that is `m + 1` with `2^(tl-2)` and
`2^(tl-1)`. -/
theorem modeBoundaries : Obligations.ModeBoundaries := by
  intro tl m h5 _ _ _
  have hlo : tl - 2 ≤ bitlength (m + 1) ↔ 2 ^ (tl - 2) ≤ m + 1 := le_bitlength_iff (Nat.succ_ne_zero m)
  have hhi : tl - 1 ≤ bitlength (m + 1) ↔ 2 ^ (tl - 1) ≤ m + 1 := le_bitlength_iff (Nat.succ_ne_zero m)
  have hmin : 2 ^ 3 ≤ 2 ^ (tl - 2) := Nat.pow_le_pow_right Nat.two_pos (by omega)
  have hdouble : 2 ^ (tl - 1) = 2 * 2 ^ (tl - 2) := by
    rw [← pow_succ', show tl - 2 + 1 = tl - 1 by omega]
  refine ⟨?_, ?_, ?_, rfl, rfl, rfl⟩
  · rw [selectMode_eq_underflow_iff]
    omega
  · rw [selectMode_eq_exact_iff]
    omega
  · rw [selectMode_eq_overflow_iff]
    omega

/-! ## Fields -/

/-- On the truncated path a field is `k` or `k + 1` bits wide, whatever the count (41_ncount_encoder.md R136). -/
theorem fieldCode_width_of_truncated {c : Int} {deficit k0 n0 : Nat} (ht : deficit + 1 < n0) :
    bitlength (deficit + 1) ≤ (fieldCode c deficit k0 n0).2 ∧
      (fieldCode c deficit k0 n0).2 ≤ bitlength (deficit + 1) + 1 := by
  simp only [fieldCode, if_pos ht]
  split <;> simp

/-- The sentinel is coded as 0 in the active width (41_ncount_encoder.md R150). -/
theorem fieldCode_sentinel (deficit k0 n0 : Nat) :
    fieldCode (-1) deficit k0 n0 = (0, if deficit + 1 < n0 then bitlength (deficit + 1) else k0) := by
  have hlt := lt_bitlength (deficit + 1)
  simp only [fieldCode]
  split
  · rw [if_neg (by omega)]
    rfl
  · rfl

/-- Settles O46: the sentinel's size is 1, and its field is that of the value 0. -/
theorem sentinelLowersDeficitByOneAndCodesAsZero : Obligations.SentinelLowersDeficitByOneAndCodesAsZero := by
  refine ⟨fun entry limit fuel i deficit m he hi hd hpos => ?_, fun entry k0 n0 r i deficit he _ => ?_⟩
  · rw [scanFrom_step hd hi (.inl he) (by rw [he]; exact hd), he, if_neg (Nat.ne_of_gt hpos)]
    rfl
  · rw [planFrom, he, fieldCode_sentinel]
    rfl

/-- Settles O48: overflow mode's threshold lies above every deficit. -/
theorem overflowModeNeverTakesTheFixedPath : Obligations.OverflowModeNeverTakesTheFixedPath := by
  intro entry tl i htl
  have ht : TakesTruncated entry tl .overflow i := overflow_truncated htl (Nat.sub_le _ _)
  exact ⟨ht, (fieldCode_width_of_truncated ht).2⟩

/-- Settles O47: each field of a plan is one of its adds, and those before the last fit their width. -/
theorem onlyTheLastFieldCanBeOverwide : Obligations.OnlyTheLastFieldCanBeOverwide := by
  intro tl s ops hp k value width hk
  have hmem := List.mem_of_getElem? hk
  obtain ⟨hpos, hwidth, hvalue⟩ := encodePlan_ops hp hmem
  obtain ⟨_, htl, _⟩ := encodePlan_ok hp
  have hpow : 2 ^ width ≤ 2 ^ 9 := Nat.pow_le_pow_right Nat.two_pos (by omega)
  refine ⟨hpos, hwidth, hvalue, by omega, fun hover => ?_⟩
  obtain ⟨front, v, w, rfl, hfront, _, _⟩ := encodePlan_split hp
  rcases Nat.lt_trichotomy k front.length with hlt | heq | hgt
  · rw [List.getElem?_append_left hlt] at hk
    exact absurd hover (hfront value width (List.mem_of_getElem? hk)).ne
  · rw [heq, List.length_append]
    rfl
  · obtain ⟨j, rfl⟩ : ∃ j, k = front.length + (j + 1) := ⟨k - front.length - 1, by omega⟩
    rw [List.getElem?_append_right (Nat.le_add_right _ _), Nat.add_sub_cancel_left] at hk
    cases j <;> cases hk

/-! ## The plan of a table -/

/-- On a table with a positive count ENCODE's checks pass (41_ncount_encoder.md R131). -/
theorem encodePlan_of_isTable {tl n m : Nat} {s : State} (h5 : 5 ≤ tl) (h8 : tl ≤ 8)
    (hT : IsTable (entryRead s) s.entryCount.toNat tl n) (hM : IsMaxCount (entryRead s) n m) (hm : 1 ≤ m) :
    encodePlan tl s = .ok (plan (entryRead s) tl n (selectMode tl m)) := by
  have hscan : scan (entryRead s) (entryLimit s) tl = .ok (n, (m : Int)) := scan_of_isTable hT hM
  rw [encodePlan, if_neg (by omega), hscan]
  exact if_neg (by omega)

theorem commandBits_encode {tl : Nat} {s : State} {ops : List BwOp} (h : encodePlan tl s = .ok ops) :
    commandBits (.encode tl) s = streamBits ops := by
  simp only [commandBits, h]

/-- The bits of entry `i`'s field. -/
def entryBits (entry : Nat → Int) (tl : Nat) (mode : Mode) (i : Nat) : List Bool :=
  fieldBits (entryField entry tl mode i).1 (entryField entry tl mode i).2

theorem streamBits_entryOps (entry : Nat → Int) (tl : Nat) (mode : Mode) (indices : List Nat) :
    streamBits (indices.flatMap (entryOps entry tl mode)) = indices.flatMap (entryBits entry tl mode) := by
  induction indices with
  | nil => rfl
  | cons i indices ih => exact congrArg (entryBits entry tl mode i ++ ·) ih

theorem streamBits_plan (entry : Nat → Int) (tl n : Nat) (mode : Mode) :
    streamBits (plan entry tl n mode) = fieldBits (tl - 5) 3 ++ fieldBits (modeValue mode) (modeWidth mode) ++
      (List.range n).flatMap (entryBits entry tl mode) := by
  rw [plan_eq, streamBits, streamBits, streamBits_entryOps, List.append_assoc]

/-- The selectors of 30_encoding.md R91, none of which begins another. -/
theorem modeSelector_prefixFree {a b : Mode} (h : a ≠ b) :
    ¬ fieldBits (modeValue a) (modeWidth a) <+: fieldBits (modeValue b) (modeWidth b) := by
  revert h
  cases a <;> cases b <;> decide

/-- Settles O49: the plan's bits are those of its header, its selector and its entries' fields. -/
theorem encodeStreamLayout : Obligations.EncodeStreamLayout := by
  refine ⟨fun a b => modeSelector_prefixFree, fun tl s n m h5 h8 hT hM hm => ?_⟩
  rw [commandBits_encode (encodePlan_of_isTable h5 h8 hT hM hm), streamBits_plan]
  cases selectMode tl m <;> rfl

end Sys2Proof.Machine

/-! ENCODE's trial run: where it fails, what it leaves, and what it depends on. -/

namespace Sys2Proof.Machine

/-! ## ENCODE's end from its trial run -/

theorem encodeUnder_of_error {policy : OverwidePolicy} {tl : Nat} {s : State} {code : ResultCode}
    (h : encodeTrial policy tl s = .error code) : encodeUnder policy tl s = .next (s.setStatus ⟨code, true⟩) := by
  rcases encodeUnder_cases policy tl s with ⟨code', htrial, _, hend⟩ | ⟨b, ws, htrial, _⟩
  · cases htrial.symm.trans h
    exact hend
  · cases htrial.symm.trans h

theorem encodeUnder_of_ok {policy : OverwidePolicy} {tl : Nat} {s : State} {r : BitWriter × List (Word × Word)}
    (h : encodeTrial policy tl s = .ok r) :
    encodeUnder policy tl s = .next ((commitTrial s r).setStatus ⟨.ok, s.status.sticky⟩) := by
  rcases encodeUnder_cases policy tl s with ⟨code, htrial, _, _⟩ | ⟨b, ws, htrial, hend⟩
  · cases htrial.symm.trans h
  · cases htrial.symm.trans h
    exact hend

/-- ENCODE's error is its trial run's: a success leaves OK (60_exceptions.md R170). -/
theorem exec_encode_error_iff {tl : Nat} {s : State} {code : ResultCode} (hcode : code ≠ .ok) :
    exec (.encode tl) s = .next (s.setStatus ⟨code, true⟩) ↔ encodeTrial overwidePolicy tl s = .error code := by
  refine ⟨fun h => ?_, encodeUnder_of_error⟩
  have hresult {t : State} (ht : encodeUnder overwidePolicy tl s = .next t) : t.status.result = code := by
    cases ht.symm.trans h
    rfl
  cases htrial : encodeTrial overwidePolicy tl s with
  | error code' => exact congrArg Except.error (hresult (encodeUnder_of_error htrial))
  | ok r => exact absurd (hresult (encodeUnder_of_ok htrial)).symm hcode

/-- Settles O52: a command's frame, and the readback of the writes its trial run lists. -/
theorem encodeFrame : Obligations.EncodeFrame := by
  intro tl s t h
  refine ⟨(exec_next h).frame, fun a ha => ?_⟩
  rcases encodeUnder_cases overwidePolicy tl s with ⟨code, _, _, hend⟩ | ⟨b, ws, htrial, hend⟩
  · cases hend.symm.trans h
    rfl
  · cases hend.symm.trans h
    refine readByte_commitWrites_of_outside (fun p hp => ?_) s.mem
    have hout := ha b ws htrial p hp
    omega

/-! ## What ENCODE depends on -/

theorem IsTable.scanReaches {entry : Nat → Int} {limit tl n i : Nat} (hT : IsTable entry limit tl n) (hi : i < n) :
    ScanReaches entry tl i :=
  ⟨fun j hj => hT.valid j (hj.trans hi), hT.total ▸ coverage_lt hi (hT.valid i hi)⟩

theorem planFrom_congr {entry entry' : Nat → Int} {k0 n0 remaining i deficit : Nat}
    (h : ∀ j, i ≤ j → j < i + remaining → entry j = entry' j) :
    planFrom entry k0 n0 remaining i deficit = planFrom entry' k0 n0 remaining i deficit := by
  induction remaining generalizing i deficit with
  | zero => rfl
  | succ r ih => rw [planFrom, planFrom, h i le_rfl (by omega), ih fun j hj hlt => h j (by omega) (by omega)]

/-- The checks and the plan depend on the declared length and the counts the scan reads. -/
theorem encodePlan_congr {tl : Nat} {s₁ s₂ : State} (hcount : s₁.entryCount = s₂.entryCount)
    (h : ∀ i < s₁.entryCount.toNat, ScanReaches (entryRead s₁) tl i → entryRead s₁ i = entryRead s₂ i) :
    encodePlan tl s₁ = encodePlan tl s₂ := by
  have hscan : scan (entryRead s₂) (entryLimit s₂) tl = scan (entryRead s₁) (entryLimit s₁) tl := by
    rw [entryLimit, entryLimit, ← hcount]
    exact scan_congr h
  rw [encodePlan, encodePlan, hscan]
  cases hok : scan (entryRead s₁) (entryLimit s₁) tl with
  | error code => rfl
  | ok p =>
    obtain ⟨n, m⟩ := p
    have hT := (scan_ok hok).1
    have hagree (j : Nat) (hj : j < 0 + n) : entryRead s₁ j = entryRead s₂ j :=
      h j (hT.within.trans_lt' (by omega)) (hT.scanReaches (by omega))
    simp only [plan, planFrom_congr fun j _ hj => hagree j hj]

theorem encodeTrial_congr {policy : OverwidePolicy} {tl : Nat} {s₁ s₂ : State} (hbw : s₁.bw = s₂.bw)
    (hbase : s₁.bufBase = s₂.bufBase) (hend : s₁.bufEnd = s₂.bufEnd) (hplan : encodePlan tl s₁ = encodePlan tl s₂) :
    encodeTrial policy tl s₁ = encodeTrial policy tl s₂ := by
  rw [encodeTrial, encodeTrial, hplan, hbw, hbase, hend]

theorem readByte_commitWrites_congr (ws : List (Word × Word)) {m₁ m₂ : Memory} {a : Nat}
    (h : readByte m₁ a = readByte m₂ a) : readByte (commitWrites m₁ ws) a = readByte (commitWrites m₂ ws) a := by
  induction ws generalizing m₁ m₂ with
  | nil => exact h
  | cons p ws ih =>
    obtain ⟨cursor, acc⟩ := p
    exact ih (by rw [readByte_memWrite4, readByte_memWrite4, h])

/-- Settles O55: what the statement fixes determines the trial run, and the commit writes the same bytes over either
memory. -/
theorem encodeDependsOnNothingElse : Obligations.EncodeDependsOnNothingElse := by
  intro policy tl s₁ s₂ t₁ t₂ hbw hbase hend hcount hagree h₁ h₂
  have htrial : encodeTrial policy tl s₁ = encodeTrial policy tl s₂ :=
    encodeTrial_congr hbw hbase hend (encodePlan_congr hcount hagree)
  cases hr : encodeTrial policy tl s₂ with
  | error code =>
    cases (encodeUnder_of_error (htrial.trans hr)).symm.trans h₁
    cases (encodeUnder_of_error hr).symm.trans h₂
    exact ⟨rfl, hbw, fun _ h => h⟩
  | ok r =>
    cases (encodeUnder_of_ok (htrial.trans hr)).symm.trans h₁
    cases (encodeUnder_of_ok hr).symm.trans h₂
    exact ⟨rfl, rfl, fun _ h => readByte_commitWrites_congr r.2 h⟩

/-! ## The two policies -/

/-- Masking a value of at most `2^w` touches bit `w` alone (41_ncount_encoder.md R140). -/
theorem applyPolicy_testBit {v w j : Nat} (hv : v ≤ 2 ^ w) (hj : j ≠ w) (policy : OverwidePolicy) :
    (applyPolicy policy v w).testBit j = v.testBit j := by
  cases policy with
  | literal => rfl
  | mask =>
    rw [applyPolicy, Nat.testBit_mod_two_pow]
    rcases Nat.lt_or_gt_of_ne hj with hlt | hgt
    · rw [decide_eq_true hlt, Bool.true_and]
    · have hbit : v.testBit j = false := Nat.testBit_lt_two_pow (hv.trans_lt (Nat.pow_lt_pow_right Nat.one_lt_two hgt))
      rw [hbit, Bool.and_false]

/-- So under either policy an add leaves the same ACC but for the bit after the field. -/
theorem bwAdd_acc_bit_of_policy {b : BitWriter} {v w q : Nat} (hv : v ≤ 2 ^ w) (hq : q ≠ b.fill.toNat + w)
    (policy : OverwidePolicy) :
    (bwAdd b (applyPolicy policy v w) w).acc.getLsbD q = (bwAdd b v w).acc.getLsbD q := by
  rw [bwAdd_acc_bit, bwAdd_acc_bit]
  rcases Nat.lt_or_ge q b.fill.toNat with hlt | hge
  · rw [decide_eq_false (Nat.not_le.mpr hlt)]
    simp
  · rw [applyPolicy_testBit hv (by omega)]

/-- After the last flush that bit stands at FILL in ACC, if it is there at all. -/
theorem flushed_acc_bit_of_policy {b : BitWriter} {v w q : Nat} (hadd : AddFits b w) (hv : v ≤ 2 ^ w)
    (hq : q ≠ (bwFlush (bwAdd b v w)).fill.toNat) (policy : OverwidePolicy) :
    (bwFlush (bwAdd b (applyPolicy policy v w) w)).acc.getLsbD q = (bwFlush (bwAdd b v w)).acc.getLsbD q := by
  rw [bwFlush_fill, bwAdd_fill hadd] at hq
  rw [bwFlush_acc_bit, bwFlush_acc_bit, bwAdd_fill hadd, bwAdd_fill hadd]
  exact bwAdd_acc_bit_of_policy hv (by omega) policy

/-- In memory it is the bit at the end of the stream. -/
theorem flushed_memoryBit_of_policy {b : BitWriter} {v w p : Nat} {lo hi : Word} (hadd : AddFits b w)
    (hflush : FlushFits lo hi b.cursor) (hv : v ≤ 2 ^ w) (m : Memory) (hp : p ≠ streamPos (bwFlush (bwAdd b v w)))
    (policy : OverwidePolicy) :
    memoryBit (memWrite4 m b.cursor.toNat (bwAdd b (applyPolicy policy v w) w).acc) 0 p =
      memoryBit (memWrite4 m b.cursor.toNat (bwAdd b v w).acc) 0 p := by
  have hfill : (bwAdd b v w).fill.toNat ≤ 32 := (bwAdd_fill hadd v).trans_le hadd
  rw [streamPos_bwFlush hfill hflush, streamPos_bwAdd hadd, streamPos] at hp
  rw [memoryBit_memWrite4, memoryBit_memWrite4]
  split
  · rw [bwAdd_acc_bit_of_policy hv (by omega)]
  · rfl

/-- Settles O56: the policy reaches the trial run in the last field only, as the bit after it, which the last flush
leaves at FILL in ACC and in the byte at CURSOR. -/
theorem policiesDifferOnlyInTheStrayBit : Obligations.PoliciesDifferOnlyInTheStrayBit := by
  intro tl s t₁ t₂ h₁ h₂
  have hsame (code : ResultCode) (herr : ∀ policy, encodeTrial policy tl s = .error code) : t₁ = t₂ := by
    cases (encodeUnder_of_error (herr .literal)).symm.trans h₁
    cases (encodeUnder_of_error (herr .mask)).symm.trans h₂
    rfl
  cases hp : encodePlan tl s with
  | error code =>
    obtain rfl := hsame code fun policy => by rw [encodeTrial, hp]
    exact ⟨rfl, rfl, rfl, fun _ _ => rfl, fun _ _ => rfl, fun _ _ _ => rfl⟩
  | ok ops =>
    obtain ⟨front, v, w, rfl, hfront, _, hvw⟩ := encodePlan_split hp
    rcases runOps_front_last hfront v w s.bw with ⟨code, herr⟩ | ⟨b, ws, hadd, hflush, hrun⟩
    · obtain rfl := hsame code fun policy => (encodeTrial_of_plan hp).trans (herr policy)
      exact ⟨rfl, rfl, rfl, fun _ _ => rfl, fun _ _ => rfl, fun _ _ _ => rfl⟩
    · have htrial := fun policy => (encodeTrial_of_plan hp).trans (hrun policy).2
      obtain ⟨hstatus, hbw₁, hbw₂, hmem⟩ : t₁.status = t₂.status ∧ t₁.bw = bwFlush (bwAdd b v w) ∧
          t₂.bw = bwFlush (bwAdd b (applyPolicy .mask v w) w) ∧
          ∀ p, p ≠ streamPos t₁.bw → memoryBit t₁.mem 0 p = memoryBit t₂.mem 0 p := by
        cases (encodeUnder_of_ok (htrial .literal)).symm.trans h₁
        cases (encodeUnder_of_ok (htrial .mask)).symm.trans h₂
        refine ⟨rfl, rfl, rfl, fun p hp => ?_⟩
        simp only [setStatus_mem, commitTrial, setBw_mem, setMem_mem, commitWrites_append]
        exact (flushed_memoryBit_of_policy hadd hflush hvw _ hp .mask).symm
      have hfill : t₁.bw.fill.toNat < 8 := by
        rw [hbw₁, bwFlush_fill]
        omega
      unfold streamPos at hmem
      refine ⟨hstatus, by rw [hbw₁, hbw₂]; rfl, by rw [hbw₁, hbw₂]; rfl, fun q hq => ?_,
        fun a ha => readByte_eq_of_bits fun q hq => ?_, fun q hq hne => ?_⟩
      · rw [hbw₁] at hq
        rw [hbw₁, hbw₂, flushed_acc_bit_of_policy hadd hvw hq]
      · rw [memoryBit_base, memoryBit_base t₂.mem]
        exact hmem _ (by omega)
      · rw [memoryBit_base, memoryBit_base t₂.mem]
        exact hmem _ (by omega)

end Sys2Proof.Machine

/-! ENCODE on a table: where its trial run overflows ACC, when it completes, and the stray bit it leaves. -/

namespace Sys2Proof.Machine

/-! ## The first three fields -/

/-- A plan with at least one entry: the header, the selector and the first field are added before the first flush. -/
theorem plan_succ (entry : Nat → Int) (tl k : Nat) (mode : Mode) :
    plan entry tl (k + 1) mode = .add (tl - 5) 3 :: .add (modeValue mode) (modeWidth mode) ::
      .add (entryField entry tl mode 0).1 (entryField entry tl mode 0).2 :: .flush ::
        (List.range' 1 k).flatMap (entryOps entry tl mode) := by
  rw [plan_eq, List.range_eq_range', List.range'_succ, List.flatMap_cons]
  rfl

/-- The bits of the header, the selector and the first field. -/
def firstFieldsWidth (entry : Nat → Int) (tl : Nat) (mode : Mode) : Nat :=
  3 + modeWidth mode + (entryField entry tl mode 0).2

/-- No field is wider than `k0`, whatever the count (41_ncount_encoder.md R142). -/
theorem entryField_width_le (entry : Nat → Int) (tl : Nat) (mode : Mode) (i : Nat) :
    (entryField entry tl mode i).2 ≤ fixedWidth tl mode := by
  by_cases ht : TakesTruncated entry tl mode i
  · exact (fieldCode_width_of_truncated ht).2.trans (bitlength_lt_fixedWidth ht)
  · rw [entryField, fieldCode_fixed ht]

/-- The first field is at its full deficit `2^tl`: fixed in exact and underflow mode, truncated in overflow mode. -/
theorem entryField_zero_width_ge (entry : Nat → Int) (tl : Nat) (mode : Mode) :
    min tl (fixedWidth tl mode) ≤ (entryField entry tl mode 0).2 := by
  by_cases ht : TakesTruncated entry tl mode 0
  · have hle : tl ≤ bitlength (2 ^ tl + 1) := (le_bitlength_iff (Nat.succ_ne_zero _)).mpr (Nat.le_succ _)
    exact (min_le_left _ _).trans (hle.trans (fieldCode_width_of_truncated ht).1)
  · rw [entryField, fieldCode_fixed ht]
    exact min_le_right _ _

theorem firstFieldsWidth_bounds {tl : Nat} (h5 : 5 ≤ tl) (h8 : tl ≤ 8) (entry : Nat → Int) (mode : Mode) :
    8 ≤ firstFieldsWidth entry tl mode ∧ firstFieldsWidth entry tl mode ≤ 14 := by
  have hlo := entryField_zero_width_ge entry tl mode
  have hhi := entryField_width_le entry tl mode 0
  unfold firstFieldsWidth
  cases mode with
  | exact | overflow | underflow =>
    simp only [fixedWidth, modeWidth] at *
    omega

/-! ## REGISTER_OVERFLOW -/

section RegisterOverflow
variable {policy : OverwidePolicy} {lo hi : Word} {ops : List BwOp} {b : BitWriter}

/-- An add overflows ACC, or the operations after it do. -/
theorem runOps_add_registerOverflow_iff {v w : Nat} :
    runOps policy lo hi (.add v w :: ops) b = .error .registerOverflow ↔
      (AddFits b w → runOps policy lo hi ops (bwAdd b (applyPolicy policy v w) w) = .error .registerOverflow) := by
  rw [runOps]
  by_cases hf : AddFits b w
  · rw [if_neg (not_not.mpr hf)]
    exact ⟨fun h _ => h, fun h => h hf⟩
  · rw [if_pos hf]
    exact ⟨fun _ hf' => absurd hf' hf, fun _ => rfl⟩

/-- A flush overflows nothing. -/
theorem runOps_flush_ne_registerOverflow (h : runOps policy lo hi ops (bwFlush b) ≠ .error .registerOverflow) :
    runOps policy lo hi (.flush :: ops) b ≠ .error .registerOverflow := by
  rw [runOps]
  split
  · exact nofun
  · split
    · next code herr => rwa [herr] at h
    · exact nofun

/-- From FILL at most 7 every field has room, so entries raise no REGISTER_OVERFLOW (41_ncount_encoder.md R146). -/
theorem runOps_entries_ne_registerOverflow {tl : Nat} (h8 : tl ≤ 8) (entry : Nat → Int) (mode : Mode)
    (indices : List Nat) (hb : b.fill.toNat ≤ 7) :
    runOps policy lo hi (indices.flatMap (entryOps entry tl mode)) b ≠ .error .registerOverflow := by
  induction indices generalizing b with
  | nil => exact nofun
  | cons i indices ih =>
    have hwidth := entryField_width_le entry tl mode i
    have hadd : AddFits b (entryField entry tl mode i).2 := by
      cases mode <;> simp only [fixedWidth] at hwidth <;> omega
    intro h
    refine runOps_flush_ne_registerOverflow (ih ?_) (runOps_add_registerOverflow_iff.mp h hadd)
    rw [bwFlush_fill]
    omega

/-- Of a plan's adds only the first three can overflow ACC, before the first flush (41_ncount_encoder.md R146). -/
theorem runOps_plan_registerOverflow_iff {tl n : Nat} (h8 : tl ≤ 8) (hn : 0 < n) (entry : Nat → Int) (mode : Mode)
    (b : BitWriter) :
    runOps policy lo hi (plan entry tl n mode) b = .error .registerOverflow ↔
      32 < b.fill.toNat + firstFieldsWidth entry tl mode := by
  obtain ⟨k, rfl⟩ : ∃ k, n = k + 1 := ⟨n - 1, by omega⟩
  unfold firstFieldsWidth
  rw [plan_succ, runOps_add_registerOverflow_iff, runOps_add_registerOverflow_iff, runOps_add_registerOverflow_iff]
  constructor
  · intro h
    by_contra hroom
    have h₁ : AddFits b 3 := by omega
    have h₂ : AddFits (bwAdd b (applyPolicy policy (tl - 5) 3) 3) (modeWidth mode) := by
      rw [AddFits, bwAdd_fill h₁]
      omega
    refine runOps_flush_ne_registerOverflow (runOps_entries_ne_registerOverflow h8 entry mode _ ?_) (h h₁ h₂ ?_)
    · rw [bwFlush_fill]
      omega
    · rw [AddFits, bwAdd_fill h₂, bwAdd_fill h₁]
      omega
  · intro hover h₁ h₂ h₃
    rw [AddFits, bwAdd_fill h₂, bwAdd_fill h₁] at h₃
    omega

end RegisterOverflow

/-- Settles O53: ENCODE's REGISTER_OVERFLOW is its trial run's, and the widths of the first three fields are those of the
deficit `2^tl`. -/
theorem encodeOverflowsExactlyAtItsFirstFields : Obligations.EncodeOverflowsExactlyAtItsFirstFields := by
  intro tl s n m h5 h8 hT hM hm
  obtain ⟨hlo, hhi⟩ := firstFieldsWidth_bounds h5 h8 (entryRead s) (selectMode tl m)
  refine ⟨?_, hlo, fun hfill => (Nat.add_le_add hfill hhi).trans (by decide)⟩
  rw [exec_encode_error_iff (by decide), encodeTrial_of_plan (encodePlan_of_isTable h5 h8 hT hM hm)]
  exact runOps_plan_registerOverflow_iff h8 hT.pos (entryRead s) (selectMode tl m) s.bw

/-! ## Completion -/

/-- A flush that does not fit stands at a CURSOR the bits added so far have reached. -/
theorem runOps_bufferTooSmall {policy : OverwidePolicy} {lo hi : Word} {ops : List BwOp} {b : BitWriter}
    (hb : b.fill.toNat ≤ 32) (h : runOps policy lo hi ops b = .error .bufferTooSmall) :
    ∃ cursor : Word, ¬ FlushFits lo hi cursor ∧ b.cursor.toNat ≤ cursor.toNat ∧
      8 * cursor.toNat ≤ streamPos b + (streamBits ops).length := by
  induction ops generalizing b with
  | nil => cases h
  | cons op ops ih =>
    cases op with
    | add v w =>
      rw [runOps] at h
      split at h
      · cases h
      · next hf =>
        replace hf := not_not.mp hf
        obtain ⟨cursor, hout, hlo, hhi⟩ := ih ((bwAdd_fill hf _).trans_le hf) h
        rw [streamPos_bwAdd hf] at hhi
        refine ⟨cursor, hout, hlo, hhi.trans_eq ?_⟩
        rw [streamBits, List.length_append, fieldBits_length, Nat.add_assoc]
    | flush =>
      rw [runOps] at h
      split at h
      · next hout => exact ⟨b.cursor, hout, le_rfl, by unfold streamPos; omega⟩
      · next hf =>
        replace hf := not_not.mp hf
        split at h
        · next code herr =>
          cases h
          obtain ⟨cursor, hout, hlo, hhi⟩ := ih (by rw [bwFlush_fill]; omega) herr
          rw [bwFlush_cursor hb hf] at hlo
          rw [streamPos_bwFlush hb hf] at hhi
          exact ⟨cursor, hout, by omega, hhi⟩
        · cases h

/-- The size of a table's plan in bits (41_ncount_encoder.md R147). -/
theorem streamBits_plan_length_le (entry : Nat → Int) {tl : Nat} (h5 : 5 ≤ tl) (n : Nat) (mode : Mode) :
    (streamBits (plan entry tl n mode)).length ≤ 5 + n * (tl + 1) := by
  have hentries : ((List.range n).map fun i => (entryBits entry tl mode i).length).sum ≤ n * (tl + 1) := by
    refine (List.sum_le_card_nsmul _ (tl + 1) fun x hx => ?_).trans_eq (by simp)
    obtain ⟨i, _, rfl⟩ := List.mem_map.mp hx
    rw [entryBits, fieldBits_length]
    exact (entryField_width_le entry tl mode i).trans (fixedWidth_bounds h5 mode).2
  have hmode : modeWidth mode ≤ 2 := by cases mode <;> decide
  rw [streamBits_plan, List.length_append, List.length_append, fieldBits_length, fieldBits_length, List.length_flatMap]
  omega

/-- Settles O51: with room above FILL no add overflows, and each flush stands at a CURSOR that the buffer's size
covers, so the trial run passes; it is committed as performing the plan would leave the machine. -/
theorem encodeCompletesOnTables : Obligations.EncodeCompletesOnTables := by
  intro tl s n m h5 h8 hT hM hm hroom hbase hend
  have hp := encodePlan_of_isTable h5 h8 hT hM hm
  have hfill : s.bw.fill.toNat ≤ 32 := by omega
  have hbits : (streamBits (plan (entryRead s) tl n (selectMode tl m))).length ≤ 5 + 2 ^ tl * (tl + 1) :=
    (streamBits_plan_length_le (entryRead s) h5 n _).trans
      (Nat.add_le_add_left (Nat.mul_le_mul_right _ hT.length_le) 5)
  cases hr : runOps .literal s.bufBase s.bufEnd (plan (entryRead s) tl n (selectMode tl m)) s.bw with
  | error code =>
    exfalso
    rcases runOps_error hr with rfl | rfl
    · have hover := (runOps_plan_registerOverflow_iff h8 hT.pos _ _ _).mp hr
      unfold firstFieldsWidth at hover
      omega
    · obtain ⟨cursor, hout, hlo, hhi⟩ := runOps_bufferTooSmall hfill hr
      unfold streamPos at hhi
      exact hout ⟨by omega, by omega⟩
  | ok r =>
    refine ⟨_, encodeUnder_of_ok ((encodeTrial_of_plan hp).trans hr), rfl, ?_, ?_, (runOps_cursor hfill hr).2.1⟩
    · rw [performOps_eq_map_runOps, hr]
      rfl
    · rw [commandBits_encode hp]
      exact runOps_pos hfill hr

/-! ## The stray bit -/

/-- What stands at and above FILL after a last field on a clean ACC: the bit of an over-wide value, unless it falls
beyond ACC (41_ncount_encoder.md R141, R144). -/
theorem bwAdd_acc_above_fill {b : BitWriter} {v w : Nat} (hc : b.Clean) (hf : AddFits b w) (hv : v ≤ 2 ^ w) :
    (bwAdd b v w).acc.toNat / 2 ^ (b.fill.toNat + w) = if v = 2 ^ w ∧ b.fill.toNat + w ≠ 32 then 1 else 0 := by
  rcases Nat.lt_or_eq_of_le hv with hlt | heq
  · have hclean : (bwAdd b v w).acc.toNat < 2 ^ (b.fill.toNat + w) := bwAdd_fill hf v ▸ bwAdd_clean hf hlt (.inl hc)
    rw [Nat.div_eq_of_lt hclean, if_neg (fun h => hlt.ne h.1)]
  · have hlow : b.acc.toNat / 2 ^ (b.fill.toNat + w) = 0 :=
      Nat.div_eq_of_lt (hc.trans_le (Nat.pow_le_pow_right Nat.two_pos (Nat.le_add_right _ _)))
    rw [bwAdd_acc, BitVec.toNat_or, BitVec.toNat_ofNat, Nat.or_div_two_pow, hlow, Nat.zero_or, heq, Nat.shiftLeft_eq,
      ← pow_add, Nat.add_comm w]
    by_cases h32 : b.fill.toNat + w = 32
    · rw [h32, Nat.mod_self, Nat.zero_div, if_neg (fun h => h.2 rfl)]
    · have hroom : b.fill.toNat + w ≤ 32 := hf
      rw [Nat.mod_eq_of_lt (Nat.pow_lt_pow_right Nat.one_lt_two (by omega)), Nat.div_self (Nat.two_pow_pos _),
        if_pos ⟨rfl, h32⟩]

/-- A flush shifts what stands above FILL with the rest. -/
theorem bwFlush_acc_above_fill (b : BitWriter) :
    (bwFlush b).acc.toNat / 2 ^ (bwFlush b).fill.toNat = b.acc.toNat / 2 ^ b.fill.toNat := by
  rw [bwFlush_acc_toNat, bwFlush_fill, Nat.div_div_eq_div_mul, ← pow_add, Nat.div_add_mod]

/-- The operations of a plan before its last field. -/
def planFront (entry : Nat → Int) (tl k : Nat) (mode : Mode) : List BwOp :=
  .add (tl - 5) 3 :: .add (modeValue mode) (modeWidth mode) :: (List.range k).flatMap (entryOps entry tl mode)

theorem plan_eq_front_last (entry : Nat → Int) (tl k : Nat) (mode : Mode) :
    plan entry tl (k + 1) mode = planFront entry tl k mode ++
      [.add (entryField entry tl mode k).1 (entryField entry tl mode k).2, .flush] := by
  rw [plan_eq, List.range_succ, List.flatMap_append]
  simp [planFront, entryOps]

/-- The header's add makes the stray bit a valid one, and the later fields fit, so ACC is clean before the last. -/
theorem runOps_planFront_clean {policy : OverwidePolicy} {lo hi : Word} {entry : Nat → Int} {tl k : Nat} {mode : Mode}
    {b : BitWriter} {r : BitWriter × List (Word × Word)}
    (hv : ∀ v w, BwOp.add v w ∈ planFront entry tl k mode → v < 2 ^ w) (hb : b.StrayAtMost)
    (h : runOps policy lo hi (planFront entry tl k mode) b = .ok r) : r.1.Clean := by
  have hheader := hv (tl - 5) 3 List.mem_cons_self
  obtain ⟨hf, hr⟩ := runOps_add_ok h
  rw [applyPolicy_of_fits policy hheader] at hr
  exact (runOps_view_fits (fun v w hm => hv v w (List.mem_cons_of_mem _ hm)) ((bwAdd_fill hf _).trans_le hf)
    (bwAdd_clean hf hheader (.inr ⟨hb, by decide⟩)) hr []).1

/-- FILL before the last field: the header and the selector above the starting FILL where it is the first, else less
than 8. -/
theorem runOps_planFront_fill {policy : OverwidePolicy} {lo hi : Word} {entry : Nat → Int} {tl k : Nat} {mode : Mode}
    {b : BitWriter} {r : BitWriter × List (Word × Word)}
    (h : runOps policy lo hi (planFront entry tl k mode) b = .ok r) :
    (k = 0 ∧ r.1.fill.toNat = b.fill.toNat + 3 + modeWidth mode) ∨ (k ≠ 0 ∧ r.1.fill.toNat < 8) := by
  cases k with
  | zero =>
    left
    obtain ⟨h₁, hr₁⟩ := runOps_add_ok h
    obtain ⟨h₂, hr₂⟩ := runOps_add_ok hr₁
    cases hr₂
    exact ⟨rfl, by rw [bwAdd_fill h₂, bwAdd_fill h₁]⟩
  | succ j =>
    right
    have hlast : planFront entry tl (j + 1) mode = (planFront entry tl j mode ++
        [.add (entryField entry tl mode j).1 (entryField entry tl mode j).2]) ++ [.flush] := by
      rw [← List.append_cons, ← plan_eq_front_last, plan_eq, planFront]
    rw [hlast] at h
    exact ⟨Nat.succ_ne_zero j, runOps_fill_of_flush_last h⟩

/-- Settles O54: ACC is clean before the last field, whose value is over-wide exactly when the last entry uses up the
deficit on the truncated path; its bit is dropped at position 32, which only a first field can end at. -/
theorem strayBitAfterEncode : Obligations.StrayBitAfterEncode := by
  intro tl s t n m h5 h8 hT hM hm hstray h hok
  have hends := exec_next h
  refine ⟨(hends.justFlushed (.inr ⟨tl, rfl⟩) hok).fill_le, ?_⟩
  have hplan := encodePlan_of_isTable h5 h8 hT hM hm
  obtain ⟨k, rfl⟩ : ∃ k, n = k + 1 := ⟨n - 1, by have := hT.pos; omega⟩
  obtain ⟨hwpos, hwle, _, hover⟩ := entryField_bounds hT hM h5 (Nat.lt_succ_self k)
  cases hends with
  | error _ _ hc ht =>
    subst ht
    exact absurd hok hc
  | encode tl' ops b ws he hp hr ht =>
    cases he
    subst ht
    cases hplan.symm.trans hp
    obtain ⟨front, v, w, b', ws', hops, hv, hvw, hfront, hadd, _, hend⟩ := runOps_plan_ok hp hr
    cases hend
    rw [plan_eq_front_last] at hops
    obtain ⟨rfl, hlast⟩ := List.append_inj' hops rfl
    simp only [List.cons.injEq, BwOp.add.injEq, and_true] at hlast
    obtain ⟨rfl, rfl⟩ := hlast
    have hc := runOps_planFront_clean hv hstray hfront
    have hfill : (k = 0 ∧ b'.fill.toNat = s.bw.fill.toNat + 3 + modeWidth (selectMode tl m)) ∨
        (k ≠ 0 ∧ b'.fill.toNat < 8) := runOps_planFront_fill hfront
    have hwidth := hwle.trans (fixedWidth_bounds h5 _).2
    show (bwFlush (bwAdd b' _ _)).acc.toNat / 2 ^ (bwFlush (bwAdd b' _ _)).fill.toNat = _
    rw [bwFlush_acc_above_fill, bwAdd_fill hadd]
    refine (bwAdd_acc_above_fill hc hadd hvw).trans (if_congr ?_ rfl rfl)
    rw [hover, Nat.add_sub_cancel]
    rcases hfill with ⟨rfl, hfill⟩ | ⟨hk, hfill⟩
    · simp [hfill, and_assoc]
    · have hne : b'.fill.toNat + (entryField (entryRead s) tl (selectMode tl m) k).2 ≠ 32 := by omega
      simp [hne, hk]
  | init he | addbits _ he | flush he => cases he

end Sys2Proof.Machine
